-- ==== Sys2Proof/Word.lean ====
section
/-! DEFINITION. The widths of spec/00_scope.md R7 and R8: bytes, 64-bit values, command words, ContentId values. -/

namespace Sys2Proof

/-- One 8-bit byte or character code unit (R8, R201). -/
abbrev Byte := BitVec 8

/-- A 64-bit operand, header, result or fault-information value (R21, R27, R31, R70). -/
abbrev Word := BitVec 64

/-- The 32-bit command word `CW` (R70, R71). -/
abbrev CmdWord := BitVec 32

/-- A ContentId value: a 32-byte string, byte 0 first (R24, R160). -/
abbrev ContentId := Vector Byte 32

end Sys2Proof
end

