-- ==== Sys2Proof/Syntax.lean ====
section
/-! DEFINITION. The commands of the block: the raw command tuple of R70 and `Instr`, one constructor for each row of
the opcode map (spec/30_encoding.md R80, spec/opcode_table.json), with the operands that row uses. -/

namespace Sys2Proof

/-- A ContentId register name `c0` to `c3` (R24, R75, R79). -/
inductive CReg where
  | c0
  | c1
  | c2
  | c3
  deriving DecidableEq, Repr

/-- The command tuple `(CW, OPA, OPB, OPC)` the host presents at the command port (R70, R78). -/
structure Command where
  cw : CmdWord
  opa : Word
  opb : Word
  opc : Word
  deriving DecidableEq, Repr

/-- The 28 commands of R80. A constructor carries the fields of `CW` and the operand ports its command uses (R76); a
port a command does not use is no part of it, since its value is ignored (R70). -/
inductive Instr where
  /-- 0x01 HMAKE, R104: `t` is CW.T, `size` is OPA. -/
  | hmake (t : BitVec 4) (size : Word)
  /-- 0x02 HBYTES, R105. -/
  | hbytes
  /-- 0x03 HDATA, R106. -/
  | hdata
  /-- 0x04 HTYPE, R107. -/
  | htype
  /-- 0x05 HSIZE, R108. -/
  | hsize
  /-- 0x06 HPRES, R109. -/
  | hpres
  /-- 0x10 BINIT, R137. -/
  | binit
  /-- 0x11 BAPH, R138. -/
  | baph
  /-- 0x12 BAPB, R139: the span (OPA, OPB). -/
  | bapb (addr len : Word)
  /-- 0x13 BAPT, R140: the span (OPA, OPB). -/
  | bapt (addr len : Word)
  /-- 0x14 BBUILD, R141. -/
  | bbuild (ca : CReg)
  /-- 0x15 CMAKE, R142: the payload span (OPA, OPB). -/
  | cmake (t : BitVec 4) (ca : CReg) (addr len : Word)
  /-- 0x20 CFROMB, R166: the buffer (OPA, OPB). -/
  | cfromb (ca : CReg) (addr len : Word)
  /-- 0x21 CFROMH, R167: the text (OPA, OPB). -/
  | cfromh (ca : CReg) (addr len : Word)
  /-- 0x22 CISB, R168: the length OPB. -/
  | cisb (len : Word)
  /-- 0x23 CISH, R169: the text (OPA, OPB). -/
  | cish (addr len : Word)
  /-- 0x24 CTOH, R170: the destination OPA. -/
  | ctoh (ca : CReg) (addr : Word)
  /-- 0x25 CTOB, R172: the destination OPA. -/
  | ctob (ca : CReg) (addr : Word)
  /-- 0x26 CCMP, R175. -/
  | ccmp (ca cb : CReg)
  /-- 0x27 CEQ, R174. -/
  | ceq (ca cb : CReg)
  /-- 0x28 CLT, R176. -/
  | clt (ca cb : CReg)
  /-- 0x29 CBOOL, R177. -/
  | cbool (ca : CReg)
  /-- 0x2A CHASH, R178. -/
  | chash (ca : CReg)
  /-- 0x2B CZERO, R179. -/
  | czero (ca : CReg)
  /-- 0x2C CMAX, R180. -/
  | cmax (ca : CReg)
  /-- 0x30 XISHEX, R206: the character OPA[7:0] (R77). -/
  | xishex (c : Byte)
  /-- 0x31 XH2B, R207: the character OPA[7:0] (R77). -/
  | xh2b (c : Byte)
  /-- 0x32 XB2H, R208: the source span (OPA, OPB) and the destination address OPC. -/
  | xb2h (src len dst : Word)
  deriving DecidableEq, Repr

end Sys2Proof
end

