-- ==== Sys2Proof/WellFormed.lean ====
section
/-! DEFINITION. Well-formedness. A raw command is well-formed when its word selects a row of the opcode map by the
mask and match of R73; an instruction term is well-formed when its type operand names an ObjectType (R82). -/

namespace Sys2Proof

/-- The five formats of R73. -/
inductive Format where
  | n
  | t
  | a
  | ta
  | ab
  deriving DecidableEq, Repr

/-- The mask column of R73: 0 at the bits of the fields the format uses. -/
def Format.mask : Format → CmdWord
  | .n => 0xFFFFFFFF
  | .t => 0xFFFFF0FF
  | .a => 0xFFFFCFFF
  | .ta => 0xFFFFC0FF
  | .ab => 0xFFFF0FFF

/-- One row of the opcode map: its OP value and its format (R80). -/
structure OpcodeRow where
  op : Byte
  format : Format
  deriving DecidableEq, Repr

/-- The opcode map of R80, in its order. -/
def opcodeMap : List OpcodeRow :=
  [⟨0x01, .t⟩, ⟨0x02, .n⟩, ⟨0x03, .n⟩, ⟨0x04, .n⟩, ⟨0x05, .n⟩, ⟨0x06, .n⟩] ++
  [⟨0x10, .n⟩, ⟨0x11, .n⟩, ⟨0x12, .n⟩, ⟨0x13, .n⟩, ⟨0x14, .a⟩, ⟨0x15, .ta⟩] ++
  [⟨0x20, .a⟩, ⟨0x21, .a⟩, ⟨0x22, .n⟩, ⟨0x23, .n⟩, ⟨0x24, .a⟩, ⟨0x25, .a⟩] ++
  [⟨0x26, .ab⟩, ⟨0x27, .ab⟩, ⟨0x28, .ab⟩, ⟨0x29, .a⟩, ⟨0x2A, .a⟩, ⟨0x2B, .a⟩, ⟨0x2C, .a⟩] ++
  [⟨0x30, .n⟩, ⟨0x31, .n⟩, ⟨0x32, .n⟩]

/-- "A command word `w` selects opcode row `r` when `w & mask(r) = match(r)`" (R73). -/
def OpcodeRow.selectedBy (r : OpcodeRow) (w : CmdWord) : Bool :=
  w &&& r.format.mask == r.op.setWidth 32

/-- A command is well-formed when its word selects a row of the opcode map (R72, R73, R81). -/
def Command.wellFormed (c : Command) : Bool :=
  opcodeMap.any fun r => r.selectedBy c.cw

/-- The type operand of an instruction that has one (R74). -/
def Instr.typeNibble : Instr → Option (BitVec 4)
  | .hmake t _ => some t
  | .cmake t _ _ _ => some t
  | .hbytes | .hdata | .htype | .hsize | .hpres => none
  | .binit | .baph | .bapb _ _ | .bapt _ _ | .bbuild _ => none
  | .cfromb _ _ _ | .cfromh _ _ _ | .cisb _ | .cish _ _ | .ctoh _ _ | .ctob _ _ => none
  | .ccmp _ _ | .ceq _ _ | .clt _ _ | .cbool _ | .chash _ | .czero _ | .cmax _ => none
  | .xishex _ | .xh2b _ | .xb2h _ _ _ => none

/-- An instruction term is well-formed when its type operand, if it has one, is one of the values 0 to 5 (R82). Every
other field has exactly the values its encoding admits. An ill-formed term still encodes, decodes and executes: it
takes the fault RESERVED_TYPE (R225), so no statement needs this check to shut it out. -/
def Instr.wellFormed (i : Instr) : Bool :=
  match i.typeNibble with
  | some t => decide (t.toNat ≤ 5)
  | none => true

end Sys2Proof
end

