-- ==== Sys2Proof/Decode.lean ====
section
/-! DEFINITION. The command decoder, total on every command tuple and rejecting by name (R70 to R81), and after it
the encoder. Both are written from the fields of R71 and the opcode map of R80. -/

namespace Sys2Proof

/-- Why a command word is illegal (R72, R81). The block reports all three as ILLEGAL_COMMAND (R224). -/
inductive DecodeReject where
  /-- OP is not in the opcode map (R81). -/
  | unassignedOpcode
  /-- A field of T, RA, RB that the format does not use is not 0 (R72). -/
  | unusedFieldNotZero
  /-- CW[31:16] is not 0 (R72). -/
  | reservedNotZero
  deriving DecidableEq, Repr

/-- CW[7:0] (R71). -/
def Command.op (c : Command) : Byte := c.cw.extractLsb' 0 8

/-- CW[11:8] (R71). -/
def Command.t (c : Command) : BitVec 4 := c.cw.extractLsb' 8 4

/-- CW[13:12] (R71). -/
def Command.ra (c : Command) : BitVec 2 := c.cw.extractLsb' 12 2

/-- CW[15:14] (R71). -/
def Command.rb (c : Command) : BitVec 2 := c.cw.extractLsb' 14 2

/-- CW[31:16] (R71). -/
def Command.reserved (c : Command) : BitVec 16 := c.cw.extractLsb' 16 16

/-- A character operand: OPA[7:0], OPA[63:8] ignored (R77). -/
def Command.char (c : Command) : Byte := c.opa.setWidth 8

/-- The register a 2-bit index selects; every index is legal (R75). -/
def CReg.ofIndex (x : BitVec 2) : CReg :=
  match x.toNat with
  | 0 => .c0
  | 1 => .c1
  | 2 => .c2
  | _ => .c3

/-- The 2-bit index of a register (R75). -/
def CReg.index : CReg → BitVec 2
  | .c0 => 0
  | .c1 => 1
  | .c2 => 2
  | .c3 => 3

/-- The fields a format does not use are 0 (R72, R73). -/
def Command.unusedZero (c : Command) : Format → Bool
  | .n => c.t == 0 && c.ra == 0 && c.rb == 0
  | .t => c.ra == 0 && c.rb == 0
  | .a => c.t == 0 && c.rb == 0
  | .ta => c.rb == 0
  | .ab => c.t == 0

/-- The instruction `i` of a row of format `f`, if the fields `f` does not use are 0 (R72). -/
def Command.inFormat (c : Command) (f : Format) (i : Instr) : Except DecodeReject Instr :=
  if c.unusedZero f then .ok i else .error .unusedFieldNotZero

/-- The opcode map of R80: the row OP selects, with its operands. -/
def decodeRow (c : Command) : Except DecodeReject Instr :=
  let ca := CReg.ofIndex c.ra
  let cb := CReg.ofIndex c.rb
  match c.op.toNat with
  | 0x01 => c.inFormat .t (.hmake c.t c.opa)
  | 0x02 => c.inFormat .n .hbytes
  | 0x03 => c.inFormat .n .hdata
  | 0x04 => c.inFormat .n .htype
  | 0x05 => c.inFormat .n .hsize
  | 0x06 => c.inFormat .n .hpres
  | 0x10 => c.inFormat .n .binit
  | 0x11 => c.inFormat .n .baph
  | 0x12 => c.inFormat .n (.bapb c.opa c.opb)
  | 0x13 => c.inFormat .n (.bapt c.opa c.opb)
  | 0x14 => c.inFormat .a (.bbuild ca)
  | 0x15 => c.inFormat .ta (.cmake c.t ca c.opa c.opb)
  | 0x20 => c.inFormat .a (.cfromb ca c.opa c.opb)
  | 0x21 => c.inFormat .a (.cfromh ca c.opa c.opb)
  | 0x22 => c.inFormat .n (.cisb c.opb)
  | 0x23 => c.inFormat .n (.cish c.opa c.opb)
  | 0x24 => c.inFormat .a (.ctoh ca c.opa)
  | 0x25 => c.inFormat .a (.ctob ca c.opa)
  | 0x26 => c.inFormat .ab (.ccmp ca cb)
  | 0x27 => c.inFormat .ab (.ceq ca cb)
  | 0x28 => c.inFormat .ab (.clt ca cb)
  | 0x29 => c.inFormat .a (.cbool ca)
  | 0x2A => c.inFormat .a (.chash ca)
  | 0x2B => c.inFormat .a (.czero ca)
  | 0x2C => c.inFormat .a (.cmax ca)
  | 0x30 => c.inFormat .n (.xishex c.char)
  | 0x31 => c.inFormat .n (.xh2b c.char)
  | 0x32 => c.inFormat .n (.xb2h c.opa c.opb c.opc)
  | _ => .error .unassignedOpcode

/-- The decoder: R72's three conditions, then the row of R80. -/
def decode (c : Command) : Except DecodeReject Instr :=
  if c.reserved = 0 then decodeRow c else .error .reservedNotZero

/-- The command word with the given fields and CW[31:16] = 0 (R71). -/
def commandWord (op : Byte) (t : BitVec 4) (ra rb : BitVec 2) : CmdWord :=
  ((((0#16 ++ rb) ++ ra) ++ t) ++ op)

/-- The encoder: the command tuple of an instruction, a port it does not use at 0 (R71, R76, R80). -/
def encode : Instr → Command
  | .hmake t size => ⟨commandWord 0x01 t 0 0, size, 0, 0⟩
  | .hbytes => ⟨commandWord 0x02 0 0 0, 0, 0, 0⟩
  | .hdata => ⟨commandWord 0x03 0 0 0, 0, 0, 0⟩
  | .htype => ⟨commandWord 0x04 0 0 0, 0, 0, 0⟩
  | .hsize => ⟨commandWord 0x05 0 0 0, 0, 0, 0⟩
  | .hpres => ⟨commandWord 0x06 0 0 0, 0, 0, 0⟩
  | .binit => ⟨commandWord 0x10 0 0 0, 0, 0, 0⟩
  | .baph => ⟨commandWord 0x11 0 0 0, 0, 0, 0⟩
  | .bapb addr len => ⟨commandWord 0x12 0 0 0, addr, len, 0⟩
  | .bapt addr len => ⟨commandWord 0x13 0 0 0, addr, len, 0⟩
  | .bbuild ca => ⟨commandWord 0x14 0 ca.index 0, 0, 0, 0⟩
  | .cmake t ca addr len => ⟨commandWord 0x15 t ca.index 0, addr, len, 0⟩
  | .cfromb ca addr len => ⟨commandWord 0x20 0 ca.index 0, addr, len, 0⟩
  | .cfromh ca addr len => ⟨commandWord 0x21 0 ca.index 0, addr, len, 0⟩
  | .cisb len => ⟨commandWord 0x22 0 0 0, 0, len, 0⟩
  | .cish addr len => ⟨commandWord 0x23 0 0 0, addr, len, 0⟩
  | .ctoh ca addr => ⟨commandWord 0x24 0 ca.index 0, addr, 0, 0⟩
  | .ctob ca addr => ⟨commandWord 0x25 0 ca.index 0, addr, 0, 0⟩
  | .ccmp ca cb => ⟨commandWord 0x26 0 ca.index cb.index, 0, 0, 0⟩
  | .ceq ca cb => ⟨commandWord 0x27 0 ca.index cb.index, 0, 0, 0⟩
  | .clt ca cb => ⟨commandWord 0x28 0 ca.index cb.index, 0, 0, 0⟩
  | .cbool ca => ⟨commandWord 0x29 0 ca.index 0, 0, 0, 0⟩
  | .chash ca => ⟨commandWord 0x2A 0 ca.index 0, 0, 0, 0⟩
  | .czero ca => ⟨commandWord 0x2B 0 ca.index 0, 0, 0, 0⟩
  | .cmax ca => ⟨commandWord 0x2C 0 ca.index 0, 0, 0, 0⟩
  | .xishex c => ⟨commandWord 0x30 0 0 0, c.setWidth 64, 0, 0⟩
  | .xh2b c => ⟨commandWord 0x31 0 0 0, c.setWidth 64, 0, 0⟩
  | .xb2h src len dst => ⟨commandWord 0x32 0 0 0, src, len, dst⟩

/-- The command tuple as one number: CW in bits 31..0, OPA in 95..32, OPB in 159..96, OPC in 223..160. The order of
the ports is the model's, for the interface below only (notes/assumptions/11.md). -/
def Command.ofBits (w : Nat) : Command :=
  ⟨BitVec.ofNat 32 w, BitVec.ofNat 64 (w >>> 32), BitVec.ofNat 64 (w >>> 96), BitVec.ofNat 64 (w >>> 160)⟩

/-- The command the low `nbits` bits of `w` make, every bit above them 0. -/
def Command.ofTableWord (nbits w : Nat) : Command :=
  Command.ofBits (w % 2 ^ nbits)

/-- The instruction the decoder reads from a word numbered as spec/opcode_table.json numbers it. -/
def decodeTableWord (nbits w : Nat) : Option Instr :=
  match decode (Command.ofTableWord nbits w) with
  | .ok i => some i
  | .error _ => none

end Sys2Proof
end

