-- ==== Sys2Proof/Config.lean ====
section
/-! DEFINITION. The implementation parameters of spec/00_scope.md R6: the fixed ones as numbers, `SHA256` as an
opaque function, and the types of the OPEN ones that are plain data (`HM_ADMIT`, `SLICE_OFF`, `SLICE_ORDER`), which
`State` holds in its field `platform` so that every statement about all states covers every value of them. -/

namespace Sys2Proof

/-- `SIZE_LIMIT` (R6): sizes are below 2^48. -/
def Config.sizeLimit : Nat := 2 ^ 48

/-- `ADDR_BITS = 64` (R6, R50): addresses are below 2^64. -/
def Config.addrLimit : Nat := 2 ^ 64

/-- `MAX_MSG` (R6, R132), in bytes. -/
def Config.maxMsg : Nat := 2 ^ 61 - 1

/-- `CID_BYTES` (R6). -/
def Config.cidBytes : Nat := 32

/-- `CID_HEX_CHARS` (R6). -/
def Config.cidHexChars : Nat := 64

/-- `HEX_INVALID` (R6, R203). -/
def Config.hexInvalid : Byte := 0xFF

/-- `SHA256` (R6, R135), OPEN in the spec: any function from byte strings to 32-byte strings. It has no body, so no
proof can lean on a digest's value (notes/assumptions/1.md). -/
opaque Config.sha256 : List Byte → ContentId

/-- `CTX_BYTES` (R6, R26), OPEN and unobservable: no rule reads it and no definition of this model does
(notes/assumptions/12.md). -/
opaque Config.ctxBytes : Nat

/-- The access kind `k` of `HM_ADMIT(a, k)` (R54). -/
inductive Access where
  /-- kind R -/
  | read
  /-- kind W -/
  | write
  deriving DecidableEq, Repr

/-- One region of the platform's memory map: the addresses `base` to `base + size - 1`, admitted for reading when
`canRead` and for writing when `canWrite` (R54, R61). -/
structure Region where
  base : Nat
  size : Nat
  canRead : Bool
  canWrite : Bool
  deriving DecidableEq, Repr

/-- `SLICE_OFF` (R6, R178): the first byte of the CHASH slice is byte 0, 8, 16 or 24. -/
inductive SliceOff where
  | at0
  | at8
  | at16
  | at24
  deriving DecidableEq, Repr

/-- `SLICE_ORDER` (R6, R178): little-endian or big-endian reading of the CHASH slice. -/
inductive SliceOrder where
  | le
  | be
  deriving DecidableEq, Repr

/-- The OPEN parameters that are plain data (R6, R54, R178). `regions` stands for `HM_ADMIT`: every predicate on the
2^64 addresses and two kinds is some list of regions (notes/assumptions/2.md). -/
structure Platform where
  regions : List Region
  sliceOff : SliceOff
  sliceOrder : SliceOrder
  deriving DecidableEq, Repr

end Sys2Proof
end

