-- ==== Sys2Proof/Machine/State.lean ====
section
/-! DEFINITION. The state of the block as plain data (spec/10_state.md), the host memory and the host's inputs beside
it, the reasons a step can stop, and the state after reset (R32, R250). -/

namespace Sys2Proof.Machine

/-- The Builder state `BST` (R25). The value 3 is never held, so it has no constructor. -/
inductive BuilderState where
  /-- `FRESH = 0`: initialized, no append since. -/
  | fresh
  /-- `ACCUM = 1`: an append command has run since BINIT or reset. -/
  | accum
  /-- `FINAL = 2`: after BBUILD. -/
  | final
  deriving DecidableEq, Repr

/-- The fault causes of R221. -/
inductive Cause where
  | illegalCommand
  | reservedType
  | hdrUnwritten
  | builderFinalized
  | addrRange
  | overlap
  | invalidSize
  | msgTooLong
  | memAccess
  deriving DecidableEq, Repr

/-- The ContentId register file `CID[0]` to `CID[3]` (R24). -/
structure CidFile where
  c0 : ContentId
  c1 : ContentId
  c2 : ContentId
  c3 : ContentId
  deriving DecidableEq, Repr

/-- What the host does between two steps of the block (R261). The reset line is not among these: it is the input
`rst` of `State`. -/
inductive HostAction where
  /-- present a command at the command port (R70) -/
  | command (c : Command)
  /-- read STAT, RES, FINFO and `fault_o`, which changes nothing (R261) -/
  | readStatus
  /-- write one byte of the host memory, between commands (R261) -/
  | writeByte (addr : Word) (b : Byte)
  deriving DecidableEq, Repr

/-- The machine. The fields `hdr` to `finfo` are the architectural state of R20; `mem` is the host memory of R50; `rst`
and `host` are the block's inputs (R250, R261); `platform` holds the OPEN parameters of R6 that are plain data. The
last three are the model's own fields (notes/assumptions/2.md, 3.md, 5.md). -/
structure State where
  /-- the header register `HDR`, storage byte i in bits 8i+7:8i (R21) -/
  hdr : Word
  /-- its valid bit `HDR_V` (R22) -/
  hdrV : Bool
  /-- the ContentId registers (R24) -/
  cid : CidFile
  /-- the Builder state (R25) -/
  bst : BuilderState
  /-- the Builder message `M` (R26) -/
  m : List Byte
  /-- the result register `RES` (R27) -/
  res : Word
  /-- the result flag `OK` (R28) -/
  ok : Bool
  /-- the fault-valid bit `FV` (R31) -/
  fv : Bool
  /-- the fault cause `CAUSE` (R31) -/
  cause : Byte
  /-- the fault information `FINFO` (R31) -/
  finfo : Word
  /-- the host memory `HM` (R50), as (address, byte) pairs in canonical form -/
  mem : List Host.Cell
  /-- the OPEN parameters of R6 that are plain data; no step changes them -/
  platform : Platform
  /-- the values of the reset input at the coming steps, one a step; released once the list is used up (R250) -/
  rst : List Bool
  /-- what the host does next: its remaining actions, in order (R29, R261) -/
  host : List HostAction
  deriving DecidableEq, Repr

/-- The reasons a step stops the model. The block's own faults are NOT here: they are next states with `FV = 1`
(R222). -/
inductive Fault where
  /-- Raised by HBYTES, HDATA, HTYPE, HSIZE, HPRES and BAPH when `HDR_V = 1` and `HDR` breaks the invariant of R23, as
  R110 asks of a model whose `HDR` could hold such a value. No run from reset reaches it. Safe: the model stops and
  gives the header no value. -/
  | malformedHeader
  deriving DecidableEq, Repr

/-- The reasons a step has no meaning. -/
inductive Refusal where
  /-- Answered by `exec` for an instruction with no meaning yet; no arm of this model answers it. Safe: the model
  stops. -/
  | notModelled (mnemonic : String)
  /-- Answered by the host's `writeByte` at an address that `HM_ADMIT` admits for neither kind: R261 lets the host
  touch admitted bytes only. Safe: the model stops. -/
  | hostWriteNotAdmitted
  deriving DecidableEq, Repr

/-- The outcome of one step of this machine. -/
abbrev Result := Host.Outcome State Fault Refusal

/-- The ContentId `Zero` (R161): every byte 0x00. -/
def zeroId : ContentId := Vector.replicate 32 0x00

/-- The whole address space admitted for reading and writing, and the slice at byte 0 read little-endian: the value of
the OPEN parameters in `State.reset` only (DESIGN CHOICE, notes/assumptions/2.md). -/
def Platform.atReset : Platform :=
  ⟨[⟨0, 2 ^ 64, true, true⟩], .at0, .le⟩

/-- The machine right after reset: the values of R32 and R250. `HDR`'s value is unspecified there and 0 here (DESIGN
CHOICE, notes/assumptions/4.md); memory lists nothing, the reset line is released, and no host action is pending. -/
def State.reset : State where
  hdr := 0
  hdrV := false
  cid := ⟨zeroId, zeroId, zeroId, zeroId⟩
  bst := .fresh
  m := []
  res := 0
  ok := false
  fv := false
  cause := 0
  finfo := 0
  mem := []
  platform := Platform.atReset
  rst := []
  host := []

end Sys2Proof.Machine
end

