-- ==== Sys2Proof/Machine/Operands.lean ====
section
/-! DEFINITION. The values the commands compute with: byte strings (R8), the packed header (R100 to R102), the hex
maps (R203 to R205, R162), ContentId values (R160, R161) and the scalar hash (R178). -/

namespace Sys2Proof.Machine

/-- `bytes(v, n)`: the n-byte little-endian list of `v` (R8). -/
def leBytes (v : Nat) : Nat → List Byte
  | 0 => []
  | n + 1 => BitVec.ofNat 8 v :: leBytes (v / 256) n

/-- The number a little-endian byte list stands for, without a bound. -/
def leNat : List Byte → Nat
  | [] => 0
  | b :: bs => b.toNat + 256 * leNat bs

/-- `bit_length(s)`: the position of the highest set bit plus one, 0 for 0 (R100). -/
def bitLength (size : Nat) : Nat :=
  if size = 0 then 0 else Nat.log2 size + 1

/-- `bc(size) = ceil(bit_length(size) / 8)` (R100). -/
def byteCount (size : Nat) : Nat :=
  (bitLength size + 7) / 8

/-- The tag byte `(byte_count << 4) | type` (R83). -/
def tagByte (t : BitVec 4) (n : Nat) : Byte :=
  (BitVec.ofNat 8 n <<< 4) ||| t.setWidth 8

/-- `Encode(t, size) = zext_64(tag) | (size << 8)` (R101). -/
def encodeHeader (t : BitVec 4) (size : Word) : Word :=
  (tagByte t (byteCount size.toNat)).setWidth 64 ||| (size <<< 8)

/-- Storage bytes 0 to 7 of a header (R21). -/
def storageBytes (h : Word) : List Byte :=
  leBytes h.toNat 8

/-- `DecCount(h) = h[6:4]` (R102). -/
def headerCount (h : Word) : Nat :=
  (h.extractLsb' 4 3).toNat

/-- `DecBytes(h) = 1 + DecCount(h)` (R102). -/
def headerLength (h : Word) : Nat :=
  1 + headerCount h

/-- `DecType(h) = h[3:0]` (R102). -/
def headerType (h : Word) : BitVec 4 :=
  h.extractLsb' 0 4

/-- `DecSize(h)`: exactly `DecCount(h)` size bytes, least significant first (R102). -/
def headerSize (h : Word) : Word :=
  BitVec.ofNat 64 (leNat ((storageBytes h).tail.take (headerCount h)))

/-- The canonical bytes of a header: the first `DecBytes(h)` storage bytes (R86, R138). -/
def headerBytes (h : Word) : List Byte :=
  (storageBytes h).take (headerLength h)

/-- The invariant of R23 on a header value: tag bit 7 is 0, the count is at most 6, the type is at most 5, and the
storage bytes past the encoding are 0x00. -/
def headerWellFormed (h : Word) : Bool :=
  !h.getLsbD 7 && decide (headerCount h ≤ 6) && decide ((headerType h).toNat ≤ 5) &&
    ((storageBytes h).drop (headerLength h)).all (· == 0)

/-- `ObjectBytes(t, p)` for a payload of `size` bytes: its packed header and then the payload (R87). -/
def objectBytes (t : BitVec 4) (size : Word) (payload : List Byte) : List Byte :=
  (storageBytes (encodeHeader t size)).take (1 + byteCount size.toNat) ++ payload

/-- `HexVal(c)` (R203), with the codes of R201. -/
def hexVal (c : Byte) : Byte :=
  if 0x30 ≤ c.toNat ∧ c.toNat ≤ 0x39 then c - 0x30
  else if 0x61 ≤ c.toNat ∧ c.toNat ≤ 0x66 then c - 0x61 + 10
  else if 0x41 ≤ c.toNat ∧ c.toNat ≤ 0x46 then c - 0x41 + 10
  else Config.hexInvalid

/-- `HexChar(n)`: the lower-case digit of a nibble (R204). -/
def hexChar (n : BitVec 4) : Byte :=
  if n.toNat ≤ 9 then 0x30 + n.setWidth 8 else 0x61 + n.setWidth 8 - 10

/-- `BytesToHex(b)`: two digits a byte, most significant nibble first (R205). -/
def bytesToHex : List Byte → List Byte
  | [] => []
  | b :: bs => hexChar (b.extractLsb' 4 4) :: hexChar (b.extractLsb' 0 4) :: bytesToHex bs

/-- `HexDecode(s)`: byte k from characters 2k and 2k + 1, the first the high nibble (R162). -/
def hexDecode : List Byte → List Byte
  | hi :: lo :: s => ((hexVal hi <<< 4) ||| hexVal lo) :: hexDecode s
  | _ => []

/-- The ContentId value of a byte string. Every use gives it exactly 32 bytes; of another list it takes the first 32
bytes, with zeros after a shorter one. -/
def toContentId (s : List Byte) : ContentId :=
  ⟨⟨(s ++ List.replicate 32 0).take 32⟩, by simp⟩

/-- `Max`: every byte 0xFF (R161). -/
def maxId : ContentId := Vector.replicate 32 0xFF

/-- The offset `SLICE_OFF` stands for (R6). -/
def sliceStart : SliceOff → Nat
  | .at0 => 0
  | .at8 => 8
  | .at16 => 16
  | .at24 => 24

/-- The scalar hash of R178: the 8 bytes from `SLICE_OFF`, read in `SLICE_ORDER`. -/
def scalarHash (off : SliceOff) (order : SliceOrder) (x : ContentId) : Word :=
  let w := (x.toList.drop (sliceStart off)).take 8
  match order with
  | .le => BitVec.ofNat 64 (leNat w)
  | .be => BitVec.ofNat 64 (leNat w.reverse)

end Sys2Proof.Machine
end

