-- ==== Sys2Proof/Machine/Flags.lean ====
section
/-! DEFINITION. What the result flag `OK` is computed from (R28), the three-way comparison, and the views of the
status that the host reads: `STAT` (R30) and `fault_o` (R31). -/

namespace Sys2Proof.Machine

/-- `IsHexChar(c)` (R202). -/
def isHexChar (c : Byte) : Bool :=
  decide (0x30 ≤ c.toNat ∧ c.toNat ≤ 0x39) || decide (0x41 ≤ c.toNat ∧ c.toNat ≤ 0x46) ||
    decide (0x61 ≤ c.toNat ∧ c.toNat ≤ 0x66)

/-- `IsHexText(s)` (R163). -/
def isHexText (s : List Byte) : Bool :=
  decide (s.length = Config.cidHexChars) && s.all isHexChar

/-- Unsigned lexicographic order of byte strings: at the first difference, the smaller byte (R165). -/
def lexLess : List Byte → List Byte → Bool
  | x :: xs, y :: ys => if x = y then lexLess xs ys else decide (x.toNat < y.toNat)
  | _, _ => false

/-- `Less(x, y)` (R165). -/
def idLess (x y : ContentId) : Bool :=
  lexLess x.toList y.toList

/-- `x == y` (R164). -/
def idEqual (x y : ContentId) : Bool :=
  x.toList == y.toList

/-- Truthiness: some byte is not 0x00 (R177). -/
def idTrue (x : ContentId) : Bool :=
  !idEqual x zeroId

/-- The value CCMP writes: -1, 0 or 1 in two's complement (R175). -/
def compareCode (x y : ContentId) : Word :=
  if idLess x y then 0xFFFFFFFFFFFFFFFF
  else if idEqual x y then 0
  else 1

/-- A header is present when its type is not `None` (R109). -/
def headerPresent (h : Word) : Bool :=
  headerType h != 0

/-- The code of a fault cause in `CAUSE` (R221). -/
def causeCode : Cause → Byte
  | .illegalCommand => 0x01
  | .reservedType => 0x02
  | .hdrUnwritten => 0x03
  | .builderFinalized => 0x04
  | .addrRange => 0x05
  | .overlap => 0x06
  | .invalidSize => 0x07
  | .msgTooLong => 0x08
  | .memAccess => 0x09

/-- The two bits of `BST` (R25). -/
def builderCode : BuilderState → BitVec 2
  | .fresh => 0
  | .accum => 1
  | .final => 2

/-- The read-only port `STAT` (R30). -/
def State.stat (s : State) : BitVec 32 :=
  (builderCode s.bst).setWidth 32 ||| ((BitVec.ofBool s.hdrV).setWidth 32 <<< 2) |||
    ((BitVec.ofBool s.ok).setWidth 32 <<< 3) ||| ((BitVec.ofBool s.fv).setWidth 32 <<< 4) |||
    (s.cause.setWidth 32 <<< 8)

/-- The output line `fault_o`, equal to `FV` at all times (R31, R236). -/
def State.faultOut (s : State) : Bool := s.fv

end Sys2Proof.Machine
end

