-- ==== Sys2Proof/Machine/Ops.lean ====
section
/-! DEFINITION. The shared operations of the machine: the host memory (R50 to R54), the ContentId registers (R24),
taking a fault (R222), the guards a command runs before its first write (R233), the Builder's append procedure
(R131), reset (R250) and the host's own actions (R261). -/

namespace Sys2Proof.Machine

/-! ### The host memory -/

/-- What an address that memory does not list reads as (DESIGN CHOICE, notes/assumptions/6.md). -/
def blankByte : Byte := 0

/-- `HM[a]` (R50). -/
def memGet : List Host.Cell → Nat → Byte
  | [], _ => blankByte
  | (k, b) :: m, a => if k = a then b else memGet m a

/-- Memory without any entry for address `a`. -/
def memErase : List Host.Cell → Nat → List Host.Cell
  | [], _ => []
  | (k, b) :: m, a => if k = a then memErase m a else (k, b) :: memErase m a

/-- Memory with an entry for `a` before the first entry of a higher address. -/
def memInsert : List Host.Cell → Nat → Byte → List Host.Cell
  | [], a, v => [(a, v)]
  | (k, b) :: m, a, v => if a < k then (a, v) :: (k, b) :: m else (k, b) :: memInsert m a v

/-- `HM[a] <- v`, keeping the canonical form: writing the blank byte removes the entry. -/
def memSet (m : List Host.Cell) (a : Nat) (v : Byte) : List Host.Cell :=
  if v = blankByte then memErase m a else memInsert (memErase m a) a v

/-- `MemRead(addr, n)` (R52). -/
def memRead (m : List Host.Cell) (a : Nat) : Nat → List Byte
  | 0 => []
  | n + 1 => memGet m a :: memRead m (a + 1) n

/-- `MemWrite(addr, |s|, s)` (R53). -/
def memWrite (m : List Host.Cell) (a : Nat) : List Byte → List Host.Cell
  | [] => m
  | b :: s => memWrite (memSet m a b) (a + 1) s

/-- The canonical form from address `lo` on: addresses strictly rising and below 2^64, no blank byte listed. -/
def memWfFrom (lo : Nat) : List Host.Cell → Bool
  | [] => true
  | (k, b) :: m => decide (lo ≤ k) && decide (k < Config.addrLimit) && b != blankByte && memWfFrom (k + 1) m

/-- Memory is in its canonical form. -/
def memWf (m : List Host.Cell) : Bool := memWfFrom 0 m

/-! ### Admission -/

/-- A region admits an access of kind `k`. -/
def regionPermits (r : Region) : Access → Bool
  | .read => r.canRead
  | .write => r.canWrite

/-- `HM_ADMIT(a, k)` (R54). -/
def admits (p : Platform) (k : Access) (a : Nat) : Bool :=
  p.regions.any fun r => decide (r.base ≤ a) && decide (a < r.base + r.size) && regionPermits r k

/-- The lowest address of the span `(a, n)` that is not admitted for kind `k`, if there is one (R54, R232). -/
def firstDenied (p : Platform) (k : Access) (a : Nat) : Nat → Option Nat
  | 0 => none
  | n + 1 => if admits p k a then firstDenied p k (a + 1) n else some a

/-! ### The ContentId registers -/

/-- `CID[i]` (R24). -/
def cidGet (f : CidFile) : CReg → ContentId
  | .c0 => f.c0
  | .c1 => f.c1
  | .c2 => f.c2
  | .c3 => f.c3

/-- `CID[i] <- v` (R24). -/
def cidSet (f : CidFile) (r : CReg) (v : ContentId) : CidFile :=
  match r with
  | .c0 => { f with c0 := v }
  | .c1 => { f with c1 := v }
  | .c2 => { f with c2 := v }
  | .c3 => { f with c3 := v }

/-! ### Register writes -/

/-- `RES <- v` (R27). -/
def State.setRes (s : State) (v : Word) : State := { s with res := v }

/-- `OK <- b` (R28). -/
def State.setOk (s : State) (b : Bool) : State := { s with ok := b }

/-- `CID[r] <- v` (R24). -/
def State.setCid (s : State) (r : CReg) (v : ContentId) : State := { s with cid := cidSet s.cid r v }

/-- `HDR <- h; HDR_V <- 1` (R104). -/
def State.setHdr (s : State) (h : Word) : State := { s with hdr := h, hdrV := true }

/-- `M <- msg; BST <- b` (R131, R137). -/
def State.setBuilder (s : State) (msg : List Byte) (b : BuilderState) : State := { s with m := msg, bst := b }

/-- The host memory with the bytes of `bs` from `addr` on (R53). -/
def State.store (s : State) (addr : Word) (bs : List Byte) : State :=
  { s with mem := memWrite s.mem addr.toNat bs }

/-! ### Taking a fault -/

/-- The three writes of `raise Fault(code, info)` (R222). -/
def State.raise (s : State) (c : Cause) (info : Word) : State :=
  { s with fv := true, cause := causeCode c, finfo := info }

/-- Taking a fault: the command ends with the three writes and nothing else (R222, R234). There is no return from a
fault but reset (R235, R251). -/
def takeFault (c : Cause) (info : Word) (s : State) : Result :=
  .next (s.raise c info)

/-- ILLEGAL_COMMAND with `FINFO = zext_64(CW)` (R72, R224). -/
def illegalCommand (c : Command) (s : State) : Result :=
  takeFault .illegalCommand (c.cw.setWidth 64) s

/-! ### Guards: each runs its continuation when its check passes -/

/-- RESERVED_TYPE on a type nibble of 6 to 15 (R82, R225). -/
def guardType (t : BitVec 4) (s : State) (k : Result) : Result :=
  if 5 < t.toNat then takeFault .reservedType (t.setWidth 64) s else k

/-- INVALID_SIZE on a size of 2^48 or more (R230). -/
def guardSize (size : Word) (s : State) (k : Result) : Result :=
  if Config.sizeLimit ≤ size.toNat then takeFault .invalidSize size s else k

/-- HDR_UNWRITTEN while `HDR_V = 0` (R226); a header that breaks R23 stops the model (R110). -/
def guardHeader (s : State) (k : Result) : Result :=
  if s.hdrV = false then takeFault .hdrUnwritten 0 s
  else if headerWellFormed s.hdr = false then .fault .malformedHeader
  else k

/-- BUILDER_FINALIZED, with the command's OP, while `BST = FINAL` (R227). -/
def guardBuilder (op : Byte) (s : State) (k : Result) : Result :=
  if s.bst = .final then takeFault .builderFinalized (op.setWidth 64) s else k

/-- MSG_TOO_LONG when `n` more bytes make `M` longer than `MAX_MSG` (R131, R231). -/
def guardMessage (n : Nat) (s : State) (k : Result) : Result :=
  if Config.maxMsg < s.m.length + n then takeFault .msgTooLong (BitVec.ofNat 64 s.m.length) s else k

/-- ADDR_RANGE on a span that passes the top of the address space (R51, R228). -/
def guardRange (addr : Word) (n : Nat) (s : State) (k : Result) : Result :=
  if Config.addrLimit < addr.toNat + n then takeFault .addrRange addr s else k

/-- The spans `(src, n)` and `(dst, 2n)` share a byte (R60). -/
def spansOverlap (src dst : Word) (n : Nat) : Bool :=
  decide (src.toNat < dst.toNat + 2 * n) && decide (dst.toNat < src.toNat + n)

/-- OVERLAP on a non-empty source that shares a byte with its destination (R60, R229). -/
def guardOverlap (src dst : Word) (n : Nat) (s : State) (k : Result) : Result :=
  if 0 < n ∧ spansOverlap src dst n then takeFault .overlap dst s else k

/-- MEM_ACCESS on a span with a byte not admitted for the kind, with the lowest such address (R54, R232). -/
def guardAccess (kind : Access) (addr : Word) (n : Nat) (s : State) (k : Result) : Result :=
  match firstDenied s.platform kind addr.toNat n with
  | some a => takeFault .memAccess (BitVec.ofNat 64 a) s
  | none => k

/-- The two checks of one span of a ContentId command: range, then access (R166, R170). -/
def guardSpan (kind : Access) (addr : Word) (n : Nat) (s : State) (k : Result) : Result :=
  guardRange addr n s (guardAccess kind addr n s k)

/-! ### The Builder's append procedure -/

/-- `Append(s, op)` (R131). -/
def appendBytes (op : Byte) (bs : List Byte) (s : State) : Result :=
  guardBuilder op s <|
  guardMessage bs.length s <|
  .next (s.setBuilder (s.m ++ bs) .accum)

/-- The append of a memory span, with the checks of R139 in its order. -/
def appendSpan (op : Byte) (addr len : Word) (s : State) : Result :=
  guardBuilder op s <|
  guardRange addr len.toNat s <|
  guardMessage len.toNat s <|
  guardAccess .read addr len.toNat s <|
  appendBytes op (memRead s.mem addr.toNat len.toNat) s

/-! ### Reset and the host's actions -/

/-- The reset input is asserted at this step (R250). -/
def State.rstAsserted (s : State) : Bool := s.rst.headD false

/-- The state once this step's value of the reset input is used up. -/
def State.nextSample (s : State) : State := { s with rst := s.rst.tail }

/-- The state with the host's remaining actions. -/
def State.withHost (s : State) (rest : List HostAction) : State := { s with host := rest }

/-- Reset takes effect: every element of the block at its reset value, host memory untouched (R250). -/
def State.blockReset (s : State) : State :=
  { State.reset with mem := s.mem, platform := s.platform, rst := s.rst, host := s.host }

/-- The host writes one byte of an admitted address (R261). -/
def hostWrite (addr : Word) (b : Byte) (s : State) : Result :=
  if admits s.platform .read addr.toNat || admits s.platform .write addr.toNat then
    .next (s.store addr [b])
  else .refused .hostWriteNotAdmitted

end Sys2Proof.Machine
end

