-- ==== Sys2Proof/Machine/Builder.lean ====
section
/-! DEFINITION. The streaming Builder and CMAKE (spec/41_builder.md R137 to R142). -/

namespace Sys2Proof.Machine

/-- BINIT (R137). -/
def execBinit (s : State) : Result :=
  .next (s.setBuilder [] .fresh)

/-- BAPH (R138). -/
def execBaph (s : State) : Result :=
  guardHeader s <| appendBytes 0x11 (headerBytes s.hdr) s

/-- BAPB (R139). -/
def execBapb (addr len : Word) (s : State) : Result :=
  appendSpan 0x12 addr len s

/-- BAPT (R140). -/
def execBapt (addr len : Word) (s : State) : Result :=
  appendSpan 0x13 addr len s

/-- BBUILD (R141). -/
def execBbuild (ca : CReg) (s : State) : Result :=
  guardBuilder 0x14 s <|
  .next ((s.setCid ca (Config.sha256 s.m)).setBuilder s.m .final)

/-- CMAKE (R142). -/
def execCmake (t : BitVec 4) (ca : CReg) (addr len : Word) (s : State) : Result :=
  guardType t s <|
  guardRange addr len.toNat s <|
  guardSize len s <|
  guardAccess .read addr len.toNat s <|
  .next (s.setCid ca (Config.sha256 (objectBytes t len (memRead s.mem addr.toNat len.toNat))))

end Sys2Proof.Machine
end

