-- ==== Sys2Proof/Machine/Header.lean ====
section
/-! DEFINITION. The PackedHeader commands (spec/40_packed_header.md R104 to R109). -/

namespace Sys2Proof.Machine

/-- HMAKE (R104). -/
def execHmake (t : BitVec 4) (size : Word) (s : State) : Result :=
  guardType t s <|
  guardSize size s <|
  .next (s.setHdr (encodeHeader t size))

/-- HBYTES (R105). -/
def execHbytes (s : State) : Result :=
  guardHeader s <| .next (s.setRes (BitVec.ofNat 64 (headerLength s.hdr)))

/-- HDATA (R106). -/
def execHdata (s : State) : Result :=
  guardHeader s <| .next (s.setRes s.hdr)

/-- HTYPE (R107). -/
def execHtype (s : State) : Result :=
  guardHeader s <| .next (s.setRes ((headerType s.hdr).setWidth 64))

/-- HSIZE (R108). -/
def execHsize (s : State) : Result :=
  guardHeader s <| .next (s.setRes (headerSize s.hdr))

/-- HPRES (R109). -/
def execHpres (s : State) : Result :=
  guardHeader s <| .next (s.setOk (headerPresent s.hdr))

end Sys2Proof.Machine
end

