-- ==== Sys2Proof/Machine/HexCodec.lean ====
section
/-! DEFINITION. The HexCodec commands (spec/43_hex_codec.md R206 to R208). -/

namespace Sys2Proof.Machine

/-- XISHEX (R206). -/
def execXishex (c : Byte) (s : State) : Result :=
  .next (s.setOk (isHexChar c))

/-- XH2B (R207). -/
def execXh2b (c : Byte) (s : State) : Result :=
  .next ((s.setRes ((hexVal c).setWidth 64)).setOk (isHexChar c))

/-- XB2H (R208). -/
def execXb2h (src len dst : Word) (s : State) : Result :=
  guardRange src len.toNat s <|
  guardRange dst (2 * len.toNat) s <|
  guardOverlap src dst len.toNat s <|
  guardAccess .read src len.toNat s <|
  guardAccess .write dst (2 * len.toNat) s <|
  .next (s.store dst (bytesToHex (memRead s.mem src.toNat len.toNat)))

end Sys2Proof.Machine
end

