-- ==== Sys2Proof/Machine/Identity.lean ====
section
/-! DEFINITION. The ContentId commands (spec/42_content_id.md R166 to R180). -/

namespace Sys2Proof.Machine

/-- CFROMB (R166): a length other than 32 yields nothing and reads no memory. -/
def execCfromb (ca : CReg) (addr len : Word) (s : State) : Result :=
  if len.toNat ≠ Config.cidBytes then .next (s.setOk false)
  else
    guardSpan .read addr Config.cidBytes s <|
    .next ((s.setCid ca (toContentId (memRead s.mem addr.toNat Config.cidBytes))).setOk true)

/-- The end of CFROMH on the 64 characters `text` (R167). -/
def parseHexId (ca : CReg) (text : List Byte) (s : State) : Result :=
  if isHexText text then .next ((s.setCid ca (toContentId (hexDecode text))).setOk true)
  else .next (s.setOk false)

/-- CFROMH (R167). -/
def execCfromh (ca : CReg) (addr len : Word) (s : State) : Result :=
  if len.toNat ≠ Config.cidHexChars then .next (s.setOk false)
  else
    guardSpan .read addr Config.cidHexChars s <|
    parseHexId ca (memRead s.mem addr.toNat Config.cidHexChars) s

/-- CISB (R168). -/
def execCisb (len : Word) (s : State) : Result :=
  .next (s.setOk (decide (len.toNat = Config.cidBytes)))

/-- CISH (R169). -/
def execCish (addr len : Word) (s : State) : Result :=
  if len.toNat ≠ Config.cidHexChars then .next (s.setOk false)
  else
    guardSpan .read addr Config.cidHexChars s <|
    .next (s.setOk (isHexText (memRead s.mem addr.toNat Config.cidHexChars)))

/-- CTOH (R170). -/
def execCtoh (ca : CReg) (addr : Word) (s : State) : Result :=
  guardSpan .write addr Config.cidHexChars s <|
  .next (s.store addr (bytesToHex (cidGet s.cid ca).toList))

/-- CTOB (R172). -/
def execCtob (ca : CReg) (addr : Word) (s : State) : Result :=
  guardSpan .write addr Config.cidBytes s <|
  .next (s.store addr (cidGet s.cid ca).toList)

/-- CCMP (R175). -/
def execCcmp (ca cb : CReg) (s : State) : Result :=
  .next (s.setRes (compareCode (cidGet s.cid ca) (cidGet s.cid cb)))

/-- CEQ (R174). -/
def execCeq (ca cb : CReg) (s : State) : Result :=
  .next (s.setOk (idEqual (cidGet s.cid ca) (cidGet s.cid cb)))

/-- CLT (R176). -/
def execClt (ca cb : CReg) (s : State) : Result :=
  .next (s.setOk (idLess (cidGet s.cid ca) (cidGet s.cid cb)))

/-- CBOOL (R177). -/
def execCbool (ca : CReg) (s : State) : Result :=
  .next (s.setOk (idTrue (cidGet s.cid ca)))

/-- CHASH (R178). -/
def execChash (ca : CReg) (s : State) : Result :=
  .next (s.setRes (scalarHash s.platform.sliceOff s.platform.sliceOrder (cidGet s.cid ca)))

/-- CZERO (R179). -/
def execCzero (ca : CReg) (s : State) : Result :=
  .next (s.setCid ca zeroId)

/-- CMAX (R180). -/
def execCmax (ca : CReg) (s : State) : Result :=
  .next (s.setCid ca maxId)

end Sys2Proof.Machine
end

