-- ==== Sys2Proof/Machine/Dispatch.lean ====
section
/-! DEFINITION. The effect of a command the block performs, one arm for each row of the opcode map (R80). -/

namespace Sys2Proof.Machine

def exec (i : Instr) (s : State) : Host.Outcome State Fault Refusal :=
  match i with
  | .hmake t size => Sys2Proof.Machine.execHmake t size s
  | .hbytes => Sys2Proof.Machine.execHbytes s
  | .hdata => Sys2Proof.Machine.execHdata s
  | .htype => Sys2Proof.Machine.execHtype s
  | .hsize => Sys2Proof.Machine.execHsize s
  | .hpres => Sys2Proof.Machine.execHpres s
  | .binit => Sys2Proof.Machine.execBinit s
  | .baph => Sys2Proof.Machine.execBaph s
  | .bapb addr len => Sys2Proof.Machine.execBapb addr len s
  | .bapt addr len => Sys2Proof.Machine.execBapt addr len s
  | .bbuild ca => Sys2Proof.Machine.execBbuild ca s
  | .cmake t ca addr len => Sys2Proof.Machine.execCmake t ca addr len s
  | .cfromb ca addr len => Sys2Proof.Machine.execCfromb ca addr len s
  | .cfromh ca addr len => Sys2Proof.Machine.execCfromh ca addr len s
  | .cisb len => Sys2Proof.Machine.execCisb len s
  | .cish addr len => Sys2Proof.Machine.execCish addr len s
  | .ctoh ca addr => Sys2Proof.Machine.execCtoh ca addr s
  | .ctob ca addr => Sys2Proof.Machine.execCtob ca addr s
  | .ccmp ca cb => Sys2Proof.Machine.execCcmp ca cb s
  | .ceq ca cb => Sys2Proof.Machine.execCeq ca cb s
  | .clt ca cb => Sys2Proof.Machine.execClt ca cb s
  | .cbool ca => Sys2Proof.Machine.execCbool ca s
  | .chash ca => Sys2Proof.Machine.execChash ca s
  | .czero ca => Sys2Proof.Machine.execCzero ca s
  | .cmax ca => Sys2Proof.Machine.execCmax ca s
  | .xishex c => Sys2Proof.Machine.execXishex c s
  | .xh2b c => Sys2Proof.Machine.execXh2b c s
  | .xb2h src len dst => Sys2Proof.Machine.execXb2h src len dst s

end Sys2Proof.Machine
end

