-- ==== Sys2Proof/Machine/Step.lean ====
section
/-! DEFINITION. One step of the machine: the reset input first, then the host's next action (R250, R261). -/

namespace Sys2Proof.Machine

/-- Performing a presented command on a block that is not halted: the decoded instruction's effect, or
ILLEGAL_COMMAND (R5, R72, R224). -/
def perform (c : Command) (s : State) : Result :=
  match decode c with
  | .ok i => exec i s
  | .error _ => illegalCommand c s

/-- The host's next action on a block whose reset input is released. With no action pending the block is idle and
keeps all state (R243); while `FV = 1` a presented command is neither performed nor consumed (R223). -/
def hostStep (s : State) : Result :=
  match s.host with
  | [] => .next s
  | .readStatus :: rest => .next (s.withHost rest)
  | .writeByte addr b :: rest => hostWrite addr b (s.withHost rest)
  | .command c :: rest => if s.fv then .next s else perform c (s.withHost rest)

/-- One step. While the reset input is asserted the block performs no command and takes its reset values (R250). -/
def step (s : State) : Host.Outcome State Fault Refusal :=
  if s.rstAsserted then .next s.nextSample.blockReset else hostStep s.nextSample

/-- `s` with the command of the given bits presented next and the reset input released for that step; nothing else
changes (notes/assumptions/10.md). -/
def State.withFetchWord (s : State) (nbits w : Nat) : State :=
  { s with host := .command (Command.ofTableWord nbits w) :: s.host, rst := false :: s.rst }

end Sys2Proof.Machine
end

