-- ==== Sys2Proof/Safety.lean ====
section
/-! DEFINITION. The terms the statements use: spans (R51, R54), the invariant of the machine, a sequence of commands
performed one after another (R29, R63), and the end of a run (R260). -/

namespace Sys2Proof.Machine

/-- The span `(addr, n)` is legal: it does not pass the top of the address space (R51). -/
def legalSpan (addr : Word) (n : Nat) : Prop :=
  addr.toNat + n ≤ 2 ^ 64

/-- Every byte of the span `(addr, n)` is admitted for kind `k` (R54). -/
def admitsSpan (p : Platform) (k : Access) (addr : Word) (n : Nat) : Prop :=
  ∀ a, addr.toNat ≤ a → a < addr.toNat + n → admits p k a = true

/-- `a` is the lowest address of the span `(addr, n)` not admitted for kind `k` (R54, R232). -/
def lowestDenied (p : Platform) (k : Access) (addr : Word) (n a : Nat) : Prop :=
  addr.toNat ≤ a ∧ a < addr.toNat + n ∧ admits p k a = false ∧
    ∀ b, addr.toNat ≤ b → b < a → admits p k b = true

/-- The commands of a list performed in order, each on the state the one before it left; a halted block performs no
further command (R63, R223). -/
def performAll : List Instr → State → Result
  | [], s => .next s
  | i :: is, s =>
    if s.fv then .next s
    else
      match exec i s with
      | .next t => performAll is t
      | .fault r => .fault r
      | .refused r => .refused r

/-- The invariant of the machine. It holds at reset and every step keeps it; the statements about states no run
reaches name the part of it they need. -/
structure State.Inv (s : State) : Prop where
  /-- a readable header meets R23 -/
  header : s.hdrV = true → headerWellFormed s.hdr = true
  /-- the Builder message is at most `MAX_MSG` long (R26) -/
  message : s.m.length ≤ Config.maxMsg
  /-- a fresh Builder has consumed nothing (R25) -/
  fresh : s.bst = .fresh → s.m = []
  /-- without a fault the fault registers hold their reset values (R31) -/
  noFault : s.fv = false → s.cause = 0 ∧ s.finfo = 0
  /-- with a fault the cause is one of the codes 0x01 to 0x09 (R221) -/
  fault : s.fv = true → 1 ≤ s.cause.toNat ∧ s.cause.toNat ≤ 9
  /-- the host memory is in canonical form -/
  memory : memWf s.mem = true

/-- A run has ended: every action of the host has been performed and no fault is recorded (R260). R260 speaks of runs
with no reset; that a run which faulted, was reset and then used up its list counts as ended, and so does one with a
reset still pending in `rst`, is the model's choice (DESIGN CHOICE, notes/assumptions/18.md). -/
def State.ended (s : State) : Prop :=
  s.host = [] ∧ s.fv = false

/-- `s` with a fault of the given code and information recorded and nothing else changed (R222). -/
def faulted (s : State) (code : Byte) (info : Word) : State :=
  { s with fv := true, cause := code, finfo := info }

/-! ### The tables of R27, R28, R32 and R57: what each command may write and which span it accesses -/

/-- The commands that write `HDR` and `HDR_V` (R32). -/
def writesHeader : Instr → Bool
  | .hmake _ _ => true
  | _ => false

/-- The register a command may write, if it may write one (R24, R32). -/
def destination : Instr → Option CReg
  | .bbuild ca | .cmake _ ca _ _ | .cfromb ca _ _ | .cfromh ca _ _ | .czero ca | .cmax ca => some ca
  | _ => none

/-- The commands that write `BST` (R32). -/
def writesBuilder : Instr → Bool
  | .binit | .baph | .bapb _ _ | .bapt _ _ | .bbuild _ => true
  | _ => false

/-- The commands that write `M` (R32). -/
def writesMessage : Instr → Bool
  | .binit | .baph | .bapb _ _ | .bapt _ _ => true
  | _ => false

/-- The commands that write `RES` (R27). -/
def writesRes : Instr → Bool
  | .hbytes | .hdata | .htype | .hsize | .ccmp _ _ | .chash _ | .xh2b _ => true
  | _ => false

/-- The commands that write `OK` (R28). -/
def writesOk : Instr → Bool
  | .hpres | .cfromb _ _ _ | .cfromh _ _ _ | .cisb _ | .cish _ _ | .ceq _ _ | .clt _ _ | .cbool _ => true
  | .xishex _ | .xh2b _ => true
  | _ => false

/-- The span a command reads, as address and length (R57). -/
def readSpan : Instr → Option (Word × Nat)
  | .bapb addr len | .bapt addr len | .cmake _ _ addr len => some (addr, len.toNat)
  | .cfromb _ addr len => if len.toNat = 32 then some (addr, 32) else none
  | .cfromh _ addr len | .cish addr len => if len.toNat = 64 then some (addr, 64) else none
  | .xb2h src len _ => some (src, len.toNat)
  | _ => none

/-- The span a command writes, as address and length (R57). -/
def writeSpan : Instr → Option (Word × Nat)
  | .ctoh _ addr => some (addr, 64)
  | .ctob _ addr => some (addr, 32)
  | .xb2h _ len dst => some (dst, 2 * len.toNat)
  | _ => none

/-! ### The operand ports each opcode uses (R76, R80) -/

/-- The opcodes of the commands that use OPA. -/
def opaUsers : List Nat := [0x01, 0x12, 0x13, 0x15, 0x20, 0x21, 0x23, 0x24, 0x25, 0x30, 0x31, 0x32]

/-- The opcodes of the commands that use OPB. -/
def opbUsers : List Nat := [0x12, 0x13, 0x15, 0x20, 0x21, 0x22, 0x23, 0x32]

/-- The opcodes of the commands that use OPC. -/
def opcUsers : List Nat := [0x32]

end Sys2Proof.Machine
end

