-- ==== Sys2Proof/Certificates/Slice0/Obligations.lean ====
section
/-! DEFINITION. The statements for the provers. Each is listed in OBLIGATIONS.json with the rules of spec/ it
formalises; the address of a span, a register and a fault are written out, so that each statement reads beside its
rule. -/

open Sys2Proof Sys2Proof.Machine

/-- Reset gives every element of the block its reset value and leaves the host memory alone (R250). -/
def Obligations.ResetTakesEveryElementToItsResetValue : Prop :=
  (∀ (s : State) (later : List Bool), s.rst = true :: later →
    ∃ t, step s = .next t ∧
      t.hdrV = false ∧ (∀ r, (cidGet t.cid r).toList = List.replicate 32 0x00) ∧ t.bst = .fresh ∧ t.m = [] ∧
      t.res = 0 ∧ t.ok = false ∧ t.fv = false ∧ t.cause = 0x00 ∧ t.finfo = 0 ∧
      t.mem = s.mem ∧ t.platform = s.platform) ∧
  (State.reset.hdrV = false ∧ (∀ r, (cidGet State.reset.cid r).toList = List.replicate 32 0x00) ∧
    State.reset.bst = .fresh ∧ State.reset.m = [] ∧ State.reset.res = 0 ∧ State.reset.ok = false ∧
    State.reset.fv = false ∧ State.reset.cause = 0x00 ∧ State.reset.finfo = 0)

/-- The machine's invariant holds right after reset (10_state.md R23, R25, R26, R31, 70_reset_and_hazards.md R250). -/
def Obligations.InvariantHoldsAtReset : Prop :=
  State.reset.Inv

/-- Every step keeps the machine's invariant (10_state.md R23, R25, R26, R31, 41_builder.md R131, 60_exceptions.md
R221, R222). -/
def Obligations.StepKeepsInvariant : Prop :=
  ∀ s t : State, s.Inv → step s = .next t → t.Inv

/-- In a state that meets the invariant, every command ends in a next state (70_reset_and_hazards.md R259, R261,
40_packed_header.md R110, 20_memory.md R58, notes/assumptions/7.md). That the host's write of a byte admitted for
neither kind is refused is the model's choice (notes/assumptions/7.md). -/
def Obligations.AcceptedCommandsAlwaysComplete : Prop :=
  (∀ (i : Instr) (s : State), s.Inv → ∃ t, exec i s = .next t) ∧
  (∀ s : State, s.Inv →
    (∃ t, step s = .next t) ∨
      (step s = .refused .hostWriteNotAdmitted ∧
        ∃ addr b rest, s.host = .writeByte addr b :: rest ∧
          admits s.platform .read addr.toNat = false ∧ admits s.platform .write addr.toNat = false))

/-- A step performs the command the host presents (00_scope.md R5, 30_encoding.md R70, 10_state.md R29,
notes/assumptions/3.md). That the host's actions and the values of the reset input stand in lists is the model's form
(notes/assumptions/3.md, 5.md). -/
def Obligations.StepPerformsThePresentedCommand : Prop :=
  ∀ (s : State) (c : Command) (rest : List HostAction) (i : Instr),
    s.rst.headD false = false → s.fv = false → s.host = .command c :: rest → decode c = .ok i →
    step s = exec i { s with rst := s.rst.tail, host := rest }

/-- A command word that selects no row of the opcode map takes ILLEGAL_COMMAND (60_exceptions.md R224, R234,
30_encoding.md R72, R81, notes/assumptions/3.md). That the faulting command is consumed is the model's reading of R234
(notes/assumptions/3.md). -/
def Obligations.IllegalCommandWordFaults : Prop :=
  ∀ (s : State) (c : Command) (rest : List HostAction),
    s.rst.headD false = false → s.fv = false → s.host = .command c :: rest →
    (((∀ r ∈ opcodeMap, r.op ≠ c.cw.extractLsb' 0 8) ∨
        (∃ r ∈ opcodeMap, r.op = c.cw.extractLsb' 0 8 ∧ c.unusedZero r.format = false) ∨
        c.cw.extractLsb' 16 16 ≠ 0) →
      step s = .next (faulted { s with rst := s.rst.tail, host := rest } 0x01 (c.cw.setWidth 64))) ∧
    ((∃ r ∈ opcodeMap, r.op = c.cw.extractLsb' 0 8 ∧ c.unusedZero r.format = true) →
      c.cw.extractLsb' 16 16 = 0 →
      ∃ i, decode c = .ok i ∧ step s = exec i { s with rst := s.rst.tail, host := rest })

/-- While FV = 1 no command is performed or consumed, and only reset clears FV (R223). -/
def Obligations.HaltedBlockAcceptsNoCommand : Prop :=
  ∀ s : State, s.fv = true →
    (s.rst.headD false = false →
      (∀ c rest, s.host = .command c :: rest → step s = .next { s with rst := s.rst.tail }) ∧
      (∀ t, step s = .next t →
        t.fv = true ∧ t.stat = s.stat ∧ t.res = s.res ∧ t.finfo = s.finfo ∧ t.faultOut = s.faultOut)) ∧
    (s.rst.headD false = true → ∃ t, step s = .next t ∧ t.fv = false)

/-- Idling, reading status and writing host memory change no register of the block (70_reset_and_hazards.md R261,
60_exceptions.md R243, 10_state.md R30, R33, notes/assumptions/3.md, notes/assumptions/5.md, notes/assumptions/7.md,
notes/assumptions/9.md, notes/assumptions/14.md). These are the model's choice: the lists of actions and reset values,
and that reset takes no action off (notes/assumptions/3.md, 5.md); that a byte admitted for reading or for writing may
be written, where R261 names no kind (notes/assumptions/7.md); the status read as an action that changes nothing
(notes/assumptions/9.md); the idle step (notes/assumptions/14.md). -/
def Obligations.HostActionsLeaveTheBlockAlone : Prop :=
  (∀ s : State, s.rst.headD false = false →
    (s.host = [] → step s = .next { s with rst := s.rst.tail }) ∧
    (∀ rest, s.host = .readStatus :: rest → step s = .next { s with rst := s.rst.tail, host := rest }) ∧
    (∀ addr b rest, s.host = .writeByte addr b :: rest →
      (admits s.platform .read addr.toNat = true ∨ admits s.platform .write addr.toNat = true) →
      ∃ t, step s = .next t ∧ t = { s with rst := s.rst.tail, host := rest, mem := t.mem } ∧
        memGet t.mem addr.toNat = b ∧ ∀ a, a ≠ addr.toNat → memGet t.mem a = memGet s.mem a)) ∧
  (∀ s : State, s.rst.headD false = true → ∃ t, step s = .next t ∧ t.host = s.host ∧ t.rst = s.rst.tail)

/-- A step that records a fault changes nothing but FV, CAUSE and FINFO (60_exceptions.md R222, R234,
notes/assumptions/3.md). That the faulting command is consumed is the model's reading of R234
(notes/assumptions/3.md). -/
def Obligations.FaultsArePrecise : Prop :=
  (∀ (s : State) (c : Cause) (info : Word), takeFault c info s = .next (faulted s (causeCode c) info)) ∧
  (∀ s t : State, s.fv = false → step s = .next t → t.fv = true →
    ∃ c rest, s.host = .command c :: rest ∧
      t = faulted { s with rst := s.rst.tail, host := rest } t.cause t.finfo)

/-- Presenting a list of commands one step each performs them in order (20_memory.md R63, 10_state.md R29,
70_reset_and_hazards.md R260, notes/assumptions/3.md, notes/assumptions/5.md). That the program is the list of the
host's pending actions (notes/assumptions/3.md), and that a used-up list of reset values means the input stays
released (notes/assumptions/5.md), is the model's choice; a list of released values that is not used up is not spoken
of. -/
def Obligations.HostCommandSequenceRunsInOrder : Prop :=
  ∀ (is : List Instr) (s t : State) (rest : List HostAction),
    s.rst = [] → s.host = is.map (fun i => .command (encode i)) ++ rest →
    performAll is { s with host := rest } = .next t → t.fv = false →
    core.run is.length s = .next t

/-- A run that has ended stays ended (70_reset_and_hazards.md R260, 60_exceptions.md R243, notes/assumptions/14.md,
notes/assumptions/18.md). The idle step is the model's form of R243 (notes/assumptions/14.md), and that a state with a
reset still pending counts as ended is the model's choice (notes/assumptions/18.md). -/
def Obligations.EndedRunStaysEnded : Prop :=
  ∀ s : State, s.ended → ∃ t, step s = .next t ∧ t.ended ∧ t.mem = s.mem

/-- Decoding the encoding of any instruction gives that instruction (30_encoding.md R71, R73, R76, R80). -/
def Obligations.DecodeOfEncodeIsTheInstruction : Prop :=
  ∀ i : Instr, decode (encode i) = .ok i

/-- The decoder accepts exactly the words that select a row by mask and match, and no word selects two (30_encoding.md
R72, R73, R80, R81). -/
def Obligations.DecoderAcceptsExactlyTheOpcodeMap : Prop :=
  (∀ c : Command, (∃ i, decode c = .ok i) ↔ ∃ r ∈ opcodeMap, c.cw &&& r.format.mask = r.op.setWidth 32) ∧
  (∀ (c : Command) (i : Instr), decode c = .ok i → (encode i).cw = c.cw) ∧
  (∀ (w : CmdWord) (r q : OpcodeRow), r ∈ opcodeMap → q ∈ opcodeMap →
    w &&& r.format.mask = r.op.setWidth 32 → w &&& q.format.mask = q.op.setWidth 32 → r = q)

/-- The value of an operand port a command does not use does not matter (30_encoding.md R70, R76, R77, R80). -/
def Obligations.DecodeIgnoresUnusedPorts : Prop :=
  ∀ c d : Command, c.cw = d.cw →
    ((c.cw.extractLsb' 0 8).toNat ∈ opaUsers →
      c.opa = d.opa ∨
        ((c.cw.extractLsb' 0 8).toNat ∈ [0x30, 0x31] ∧ c.opa.extractLsb' 0 8 = d.opa.extractLsb' 0 8)) →
    ((c.cw.extractLsb' 0 8).toNat ∈ opbUsers → c.opb = d.opb) →
    ((c.cw.extractLsb' 0 8).toNat ∈ opcUsers → c.opc = d.opc) →
    decode c = decode d

/-- Some words written out from the opcode map decode to their instructions (30_encoding.md R71, R80,
95_test_vectors.md L2.2, L2.3, L2.5). -/
def Obligations.WrittenOutWordsDecode : Prop :=
  decode ⟨0x00000101, 4, 0, 0⟩ = .ok (.hmake 1 4) ∧
  decode ⟨0x00002315, 0x1000, 4, 0⟩ = .ok (.cmake 3 .c2 0x1000 4) ∧
  decode ⟨0x00008026, 0, 0, 0⟩ = .ok (.ccmp .c0 .c2) ∧
  decode ⟨0x00000031, 0x161, 7, 9⟩ = .ok (.xh2b 0x61) ∧
  decode ⟨0x00000032, 0x7000, 3, 0x7100⟩ = .ok (.xb2h 0x7000 3 0x7100) ∧
  decode ⟨0x00000007, 0, 0, 0⟩ = .error .unassignedOpcode ∧
  decode ⟨0x0000C014, 0, 0, 0⟩ = .error .unusedFieldNotZero ∧
  decode ⟨0x80000001, 0, 0, 0⟩ = .error .reservedNotZero

/-- bc(size) is the least n with size < 256^n (R100). -/
def Obligations.ByteCountIsTheLeastThatHoldsTheSize : Prop :=
  ∀ size : Word,
    (size.toNat = 0 → byteCount size.toNat = 0) ∧
    (size.toNat ≠ 0 → byteCount size.toNat = (Nat.log2 size.toNat + 1 + 7) / 8) ∧
    size.toNat < 256 ^ byteCount size.toNat ∧
    (∀ n, size.toNat < 256 ^ n → byteCount size.toNat ≤ n) ∧
    byteCount size.toNat ≤ 8 ∧
    (7 ≤ byteCount size.toNat ↔ 2 ^ 48 ≤ size.toNat)

/-- Encode puts the tag in byte 0, the size bytes little-endian after it, and zeros after those (R101). -/
def Obligations.EncodeLaysOutTagAndSizeBytes : Prop :=
  ∀ (t : BitVec 4) (size : Word), t.toNat ≤ 5 → size.toNat < 2 ^ 48 →
    byteCount size.toNat ≤ 6 ∧
    (encodeHeader t size).toNat = (16 * byteCount size.toNat + t.toNat) + 256 * size.toNat ∧
    storageBytes (encodeHeader t size) =
      BitVec.ofNat 8 (16 * byteCount size.toNat + t.toNat) ::
        (leBytes size.toNat (byteCount size.toNat) ++ List.replicate (7 - byteCount size.toNat) 0x00)

/-- Decoding an encoded header gives back its type, size and length (R103). -/
def Obligations.DecodingTheHeaderInvertsEncoding : Prop :=
  ∀ (t : BitVec 4) (size : Word), t.toNat ≤ 5 → size.toNat < 2 ^ 48 →
    headerType (encodeHeader t size) = t ∧ headerSize (encodeHeader t size) = size ∧
    headerLength (encodeHeader t size) = 1 + byteCount size.toNat

/-- HMAKE writes HDR and HDR_V, or takes RESERVED_TYPE or INVALID_SIZE (R104). -/
def Obligations.HmakeBuildsTheHeaderOrFaults : Prop :=
  ∀ (t : BitVec 4) (size : Word) (s : State),
    (5 < t.toNat → exec (.hmake t size) s = .next (faulted s 0x02 (t.setWidth 64))) ∧
    (t.toNat ≤ 5 → 2 ^ 48 ≤ size.toNat → exec (.hmake t size) s = .next (faulted s 0x07 size)) ∧
    (t.toNat ≤ 5 → size.toNat < 2 ^ 48 →
      exec (.hmake t size) s = .next { s with hdr := encodeHeader t size, hdrV := true })

/-- HBYTES, HDATA, HTYPE, HSIZE and HPRES answer from a readable header and write nothing else (R105, R106, R107,
R108, R109, 10_state.md R23). -/
def Obligations.HeaderReadersAnswerFromHdr : Prop :=
  ∀ s : State, s.hdrV = true → headerWellFormed s.hdr = true →
    exec .hbytes s = .next { s with res := BitVec.ofNat 64 (1 + (s.hdr.extractLsb' 4 3).toNat) } ∧
    1 + (s.hdr.extractLsb' 4 3).toNat ≤ 7 ∧
    exec .hdata s = .next { s with res := s.hdr } ∧
    exec .htype s = .next { s with res := (s.hdr.extractLsb' 0 4).setWidth 64 } ∧
    (s.hdr.extractLsb' 0 4).toNat ≤ 5 ∧
    exec .hsize s =
      .next { s with res := BitVec.ofNat 64 (s.hdr.toNat / 256 % 256 ^ (s.hdr.extractLsb' 4 3).toNat) } ∧
    s.hdr.toNat / 256 % 256 ^ (s.hdr.extractLsb' 4 3).toNat < 2 ^ 48 ∧
    exec .hpres s = .next { s with ok := decide (s.hdr.extractLsb' 0 4 ≠ 0) }

/-- Reading HDR while HDR_V = 0 takes HDR_UNWRITTEN (R226). -/
def Obligations.HeaderReadersFaultWhileUnwritten : Prop :=
  ∀ s : State, s.hdrV = false →
    exec .hbytes s = .next (faulted s 0x03 0) ∧ exec .hdata s = .next (faulted s 0x03 0) ∧
    exec .htype s = .next (faulted s 0x03 0) ∧ exec .hsize s = .next (faulted s 0x03 0) ∧
    exec .hpres s = .next (faulted s 0x03 0) ∧ exec .baph s = .next (faulted s 0x03 0)

/-- A header that breaks R23 is given no value (40_packed_header.md R110, 10_state.md R23, notes/assumptions/8.md).
That the stop is this fault, and that HDATA and BAPH count among the decodes, is the model's reading
(notes/assumptions/8.md). -/
def Obligations.MalformedHeaderStopsEveryReader : Prop :=
  ∀ s : State, s.hdrV = true → headerWellFormed s.hdr = false →
    exec .hbytes s = .fault .malformedHeader ∧ exec .hdata s = .fault .malformedHeader ∧
    exec .htype s = .fault .malformedHeader ∧ exec .hsize s = .fault .malformedHeader ∧
    exec .hpres s = .fault .malformedHeader ∧ exec .baph s = .fault .malformedHeader

/-- After HMAKE, the readers give back the type, the size, the length and the presence (40_packed_header.md R103,
R104, R105, R107, R108, R109, 95_test_vectors.md L1.1, L1.2). -/
def Obligations.HmakeThenReadingGivesTypeSizeAndLength : Prop :=
  ∀ (t : BitVec 4) (size : Word) (s : State), s.fv = false → t.toNat ≤ 5 → size.toNat < 2 ^ 48 →
    ∃ h : Word,
      performAll [.hmake t size, .htype] s = .next { s with hdr := h, hdrV := true, res := t.setWidth 64 } ∧
      performAll [.hmake t size, .hsize] s = .next { s with hdr := h, hdrV := true, res := size } ∧
      performAll [.hmake t size, .hbytes] s =
        .next { s with hdr := h, hdrV := true, res := BitVec.ofNat 64 (1 + byteCount size.toNat) } ∧
      performAll [.hmake t size, .hpres] s = .next { s with hdr := h, hdrV := true, ok := decide (t ≠ 0) }

/-- BINIT empties the message and makes the Builder fresh, in every state (R137). -/
def Obligations.BinitGivesAFreshBuilder : Prop :=
  ∀ s : State, exec .binit s = .next { s with m := [], bst := .fresh }

/-- BAPH appends the first 1 + byte_count storage bytes of HDR (R138, R131, 10_state.md R23). -/
def Obligations.BaphAppendsTheHeaderBytes : Prop :=
  ∀ s : State, s.hdrV = true → headerWellFormed s.hdr = true →
    (s.bst = .final → exec .baph s = .next (faulted s 0x04 0x11)) ∧
    (s.bst ≠ .final → 2 ^ 61 - 1 < s.m.length + (1 + (s.hdr.extractLsb' 4 3).toNat) →
      exec .baph s = .next (faulted s 0x08 (BitVec.ofNat 64 s.m.length))) ∧
    (s.bst ≠ .final → s.m.length + (1 + (s.hdr.extractLsb' 4 3).toNat) ≤ 2 ^ 61 - 1 →
      ∃ bs : List Byte, bs.length = 1 + (s.hdr.extractLsb' 4 3).toNat ∧
        (∀ i (h : i < bs.length), bs[i] = s.hdr.extractLsb' (8 * i) 8) ∧
        exec .baph s = .next { s with m := s.m ++ bs, bst := .accum })

/-- BAPB and BAPT append the bytes of their span, or take the first fault of their order (R139, R140). -/
def Obligations.SpanAppendsAddTheBytesOrFault : Prop :=
  ∀ (addr len : Word) (s : State),
    (s.bst = .final →
      exec (.bapb addr len) s = .next (faulted s 0x04 0x12) ∧
      exec (.bapt addr len) s = .next (faulted s 0x04 0x13)) ∧
    (s.bst ≠ .final → ¬legalSpan addr len.toNat →
      exec (.bapb addr len) s = .next (faulted s 0x05 addr) ∧
      exec (.bapt addr len) s = .next (faulted s 0x05 addr)) ∧
    (s.bst ≠ .final → legalSpan addr len.toNat → 2 ^ 61 - 1 < s.m.length + len.toNat →
      exec (.bapb addr len) s = .next (faulted s 0x08 (BitVec.ofNat 64 s.m.length)) ∧
      exec (.bapt addr len) s = .next (faulted s 0x08 (BitVec.ofNat 64 s.m.length))) ∧
    (s.bst ≠ .final → legalSpan addr len.toNat → s.m.length + len.toNat ≤ 2 ^ 61 - 1 →
      ∀ a, lowestDenied s.platform .read addr len.toNat a →
      exec (.bapb addr len) s = .next (faulted s 0x09 (BitVec.ofNat 64 a)) ∧
      exec (.bapt addr len) s = .next (faulted s 0x09 (BitVec.ofNat 64 a))) ∧
    (s.bst ≠ .final → legalSpan addr len.toNat → s.m.length + len.toNat ≤ 2 ^ 61 - 1 →
      admitsSpan s.platform .read addr len.toNat →
      ∃ bs : List Byte, bs.length = len.toNat ∧
        (∀ i (h : i < bs.length), bs[i] = memGet s.mem (addr.toNat + i)) ∧
        exec (.bapb addr len) s = .next { s with m := s.m ++ bs, bst := .accum } ∧
        exec (.bapt addr len) s = .next { s with m := s.m ++ bs, bst := .accum })

/-- Appending a byte string in one command or in two leaves the same state (R133). -/
def Obligations.SplitAppendsLeaveTheSameBuilder : Prop :=
  ∀ (a n b k c j : Word) (ca : CReg) (s : State), s.fv = false → s.bst ≠ .final →
    legalSpan a n.toNat → legalSpan b k.toNat → legalSpan c j.toNat →
    admitsSpan s.platform .read a n.toNat → admitsSpan s.platform .read b k.toNat →
    admitsSpan s.platform .read c j.toNat →
    n.toNat = k.toNat + j.toNat → s.m.length + n.toNat ≤ 2 ^ 61 - 1 →
    (∀ i, i < k.toNat → memGet s.mem (a.toNat + i) = memGet s.mem (b.toNat + i)) →
    (∀ i, i < j.toNat → memGet s.mem (a.toNat + k.toNat + i) = memGet s.mem (c.toNat + i)) →
    ∃ t u, exec (.bapb a n) s = .next t ∧ performAll [.bapb b k, .bapb c j] s = .next t ∧
      performAll [.bapb a n, .bbuild ca] s = .next u ∧
      performAll [.bapb b k, .bapb c j, .bbuild ca] s = .next u ∧
      cidGet u.cid ca = Config.sha256 t.m

/-- BBUILD writes SHA256(M) to its register and finalizes the Builder; a second one faults (R141). -/
def Obligations.BbuildStoresTheDigestOnce : Prop :=
  ∀ (ca : CReg) (s : State),
    (s.bst = .final → exec (.bbuild ca) s = .next (faulted s 0x04 0x14)) ∧
    (s.bst ≠ .final →
      ∃ t, exec (.bbuild ca) s = .next t ∧ t = { s with cid := t.cid, bst := .final } ∧
        cidGet t.cid ca = Config.sha256 s.m ∧ ∀ r, r ≠ ca → cidGet t.cid r = cidGet s.cid r)

/-- CMAKE writes the digest of the packed header and the payload, or takes the first fault of its order (R142). -/
def Obligations.CmakeStoresTheObjectIdOrFaults : Prop :=
  ∀ (t : BitVec 4) (ca : CReg) (addr len : Word) (s : State),
    (5 < t.toNat → exec (.cmake t ca addr len) s = .next (faulted s 0x02 (t.setWidth 64))) ∧
    (t.toNat ≤ 5 → ¬legalSpan addr len.toNat → exec (.cmake t ca addr len) s = .next (faulted s 0x05 addr)) ∧
    (t.toNat ≤ 5 → legalSpan addr len.toNat → 2 ^ 48 ≤ len.toNat →
      exec (.cmake t ca addr len) s = .next (faulted s 0x07 len)) ∧
    (t.toNat ≤ 5 → legalSpan addr len.toNat → len.toNat < 2 ^ 48 →
      ∀ a, lowestDenied s.platform .read addr len.toNat a →
      exec (.cmake t ca addr len) s = .next (faulted s 0x09 (BitVec.ofNat 64 a))) ∧
    (t.toNat ≤ 5 → legalSpan addr len.toNat → len.toNat < 2 ^ 48 → admitsSpan s.platform .read addr len.toNat →
      ∃ payload : List Byte, payload.length = len.toNat ∧
        (∀ i (h : i < payload.length), payload[i] = memGet s.mem (addr.toNat + i)) ∧
        ∃ u, exec (.cmake t ca addr len) s = .next u ∧ u = { s with cid := u.cid } ∧
          cidGet u.cid ca = Config.sha256 (BitVec.ofNat 8 (16 * byteCount len.toNat + t.toNat) ::
            (leBytes len.toNat (byteCount len.toNat) ++ payload)) ∧
          ∀ r, r ≠ ca → cidGet u.cid r = cidGet s.cid r)

/-- CMAKE gives the ContentId of HMAKE, BINIT, BAPH, BAPB, BBUILD (R143). -/
def Obligations.CmakeAgreesWithTheBuilderSequence : Prop :=
  ∀ (t : BitVec 4) (ca : CReg) (addr len : Word) (s : State), s.fv = false → t.toNat ≤ 5 →
    legalSpan addr len.toNat → len.toNat < 2 ^ 48 → admitsSpan s.platform .read addr len.toNat →
    ∃ u v, exec (.cmake t ca addr len) s = .next u ∧
      performAll [.hmake t len, .binit, .baph, .bapb addr len, .bbuild ca] s = .next v ∧
      u.cid = v.cid ∧ u = { s with cid := u.cid } ∧
      v = { s with cid := v.cid, hdr := encodeHeader t len, hdrV := true, bst := .final, m := v.m } ∧
      cidGet v.cid ca = Config.sha256 v.m

/-- CFROMB loads 32 bytes, yields nothing for another length, or takes its faults (R166). -/
def Obligations.CfrombLoadsExactlyThirtyTwoBytes : Prop :=
  ∀ (ca : CReg) (addr len : Word) (s : State),
    (len.toNat ≠ 32 → exec (.cfromb ca addr len) s = .next { s with ok := false }) ∧
    (len.toNat = 32 → ¬legalSpan addr 32 → exec (.cfromb ca addr len) s = .next (faulted s 0x05 addr)) ∧
    (len.toNat = 32 → legalSpan addr 32 → ∀ a, lowestDenied s.platform .read addr 32 a →
      exec (.cfromb ca addr len) s = .next (faulted s 0x09 (BitVec.ofNat 64 a))) ∧
    (len.toNat = 32 → legalSpan addr 32 → admitsSpan s.platform .read addr 32 →
      ∃ v : ContentId, (∀ k (h : k < 32), v[k] = memGet s.mem (addr.toNat + k)) ∧
        exec (.cfromb ca addr len) s = .next { s with cid := cidSet s.cid ca v, ok := true })

/-- CFROMH parses 64 hex digits, yields nothing for other text, or takes its faults (R167). -/
def Obligations.CfromhParsesSixtyFourHexDigits : Prop :=
  ∀ (ca : CReg) (addr len : Word) (s : State),
    (len.toNat ≠ 64 → exec (.cfromh ca addr len) s = .next { s with ok := false }) ∧
    (len.toNat = 64 → ¬legalSpan addr 64 → exec (.cfromh ca addr len) s = .next (faulted s 0x05 addr)) ∧
    (len.toNat = 64 → legalSpan addr 64 → ∀ a, lowestDenied s.platform .read addr 64 a →
      exec (.cfromh ca addr len) s = .next (faulted s 0x09 (BitVec.ofNat 64 a))) ∧
    (len.toNat = 64 → legalSpan addr 64 → admitsSpan s.platform .read addr 64 →
      ((∃ i, i < 64 ∧ isHexChar (memGet s.mem (addr.toNat + i)) = false) →
        exec (.cfromh ca addr len) s = .next { s with ok := false }) ∧
      ((∀ i, i < 64 → isHexChar (memGet s.mem (addr.toNat + i)) = true) →
        ∃ v : ContentId,
          (∀ k (h : k < 32), v[k] = ((hexVal (memGet s.mem (addr.toNat + 2 * k)) <<< 4) |||
            hexVal (memGet s.mem (addr.toNat + 2 * k + 1)))) ∧
          exec (.cfromh ca addr len) s = .next { s with cid := cidSet s.cid ca v, ok := true }))

/-- CISB sets OK to whether the length is 32 and reads no memory (R168). -/
def Obligations.CisbTestsTheLengthOnly : Prop :=
  (∀ (len : Word) (s : State), exec (.cisb len) s = .next { s with ok := decide (len.toNat = 32) }) ∧
  (∀ opa opb opc : Word, decode ⟨0x00000022, opa, opb, opc⟩ = .ok (.cisb opb))

/-- CISH sets OK to whether the text is 64 hex digits, as CFROMH would (R169). -/
def Obligations.CishClassifiesTheText : Prop :=
  ∀ (addr len : Word) (s : State),
    (len.toNat ≠ 64 → exec (.cish addr len) s = .next { s with ok := false }) ∧
    (len.toNat = 64 → ¬legalSpan addr 64 → exec (.cish addr len) s = .next (faulted s 0x05 addr)) ∧
    (len.toNat = 64 → legalSpan addr 64 → ∀ a, lowestDenied s.platform .read addr 64 a →
      exec (.cish addr len) s = .next (faulted s 0x09 (BitVec.ofNat 64 a))) ∧
    (len.toNat = 64 → legalSpan addr 64 → admitsSpan s.platform .read addr 64 →
      ∃ b : Bool, exec (.cish addr len) s = .next { s with ok := b } ∧
        (b = true ↔ ∀ i, i < 64 → isHexChar (memGet s.mem (addr.toNat + i)) = true)) ∧
    (∀ (ca : CReg) (t u : State), exec (.cish addr len) s = .next t → exec (.cfromh ca addr len) s = .next u →
      t.ok = u.ok)

/-- CTOH writes 64 lower-case hex digits of its register and no other byte, or takes its faults (R170). -/
def Obligations.CtohWritesLowerCaseHexText : Prop :=
  ∀ (ca : CReg) (addr : Word) (s : State),
    (¬legalSpan addr 64 → exec (.ctoh ca addr) s = .next (faulted s 0x05 addr)) ∧
    (legalSpan addr 64 → ∀ a, lowestDenied s.platform .write addr 64 a →
      exec (.ctoh ca addr) s = .next (faulted s 0x09 (BitVec.ofNat 64 a))) ∧
    (legalSpan addr 64 → admitsSpan s.platform .write addr 64 →
      ∃ t, exec (.ctoh ca addr) s = .next t ∧ t = { s with mem := t.mem } ∧
        (∀ k (h : k < 32),
          memGet t.mem (addr.toNat + 2 * k) = hexChar ((cidGet s.cid ca)[k].extractLsb' 4 4) ∧
          memGet t.mem (addr.toNat + 2 * k + 1) = hexChar ((cidGet s.cid ca)[k].extractLsb' 0 4)) ∧
        ∀ a, a < addr.toNat ∨ addr.toNat + 64 ≤ a → memGet t.mem a = memGet s.mem a)

/-- CTOB writes the 32 bytes of its register and no other byte, or takes its faults (R172). -/
def Obligations.CtobWritesTheRawBytes : Prop :=
  ∀ (ca : CReg) (addr : Word) (s : State),
    (¬legalSpan addr 32 → exec (.ctob ca addr) s = .next (faulted s 0x05 addr)) ∧
    (legalSpan addr 32 → ∀ a, lowestDenied s.platform .write addr 32 a →
      exec (.ctob ca addr) s = .next (faulted s 0x09 (BitVec.ofNat 64 a))) ∧
    (legalSpan addr 32 → admitsSpan s.platform .write addr 32 →
      ∃ t, exec (.ctob ca addr) s = .next t ∧ t = { s with mem := t.mem } ∧
        (∀ k (h : k < 32), memGet t.mem (addr.toNat + k) = (cidGet s.cid ca)[k]) ∧
        ∀ a, a < addr.toNat ∨ addr.toNat + 32 ≤ a → memGet t.mem a = memGet s.mem a)

/-- CTOH and then CFROMH of the same span gives the value back (R171). -/
def Obligations.HexTextRoundTripThroughMemory : Prop :=
  ∀ (ca cb : CReg) (addr : Word) (s : State), s.fv = false → legalSpan addr 64 →
    admitsSpan s.platform .write addr 64 → admitsSpan s.platform .read addr 64 →
    ∃ t, performAll [.ctoh ca addr, .cfromh cb addr 64] s = .next t ∧
      t.ok = true ∧ t.fv = false ∧ cidGet t.cid cb = cidGet s.cid ca

/-- CTOB and then CFROMB of the same span gives the value back (R173). -/
def Obligations.RawBytesRoundTripThroughMemory : Prop :=
  ∀ (ca cb : CReg) (addr : Word) (s : State), s.fv = false → legalSpan addr 32 →
    admitsSpan s.platform .write addr 32 → admitsSpan s.platform .read addr 32 →
    ∃ t, performAll [.ctob ca addr, .cfromb cb addr 32] s = .next t ∧
      t.ok = true ∧ t.fv = false ∧ cidGet t.cid cb = cidGet s.cid ca

/-- Less compares at the first differing byte, is a strict total order, and is the big-endian order (R165). -/
def Obligations.LessIsTheLexicographicTotalOrder : Prop :=
  (∀ x y : ContentId, idLess x y = true ↔
    ∃ k, ∃ h : k < 32, (∀ j (hj : j < k), x[j] = y[j]) ∧ x[k].toNat < y[k].toNat) ∧
  (∀ x : ContentId, idLess x x = false) ∧
  (∀ x y z : ContentId, idLess x y = true → idLess y z = true → idLess x z = true) ∧
  (∀ x y : ContentId, x ≠ y → (idLess x y = true ↔ idLess y x = false)) ∧
  (∀ x y : ContentId, idLess x y = true ↔ leNat x.toList.reverse < leNat y.toList.reverse)

/-- CEQ, CCMP, CLT and CBOOL write the comparison of their registers and nothing else (R174, R175, R176, R177). -/
def Obligations.CompareCommandsWriteTheOrderOfTwoRegisters : Prop :=
  ∀ (ca cb : CReg) (s : State),
    exec (.ceq ca cb) s = .next { s with ok := decide (cidGet s.cid ca = cidGet s.cid cb) } ∧
    (idLess (cidGet s.cid ca) (cidGet s.cid cb) = true →
      exec (.ccmp ca cb) s = .next { s with res := 0xFFFFFFFFFFFFFFFF }) ∧
    (cidGet s.cid ca = cidGet s.cid cb → exec (.ccmp ca cb) s = .next { s with res := 0 }) ∧
    (idLess (cidGet s.cid ca) (cidGet s.cid cb) = false → cidGet s.cid ca ≠ cidGet s.cid cb →
      exec (.ccmp ca cb) s = .next { s with res := 1 }) ∧
    exec (.clt ca cb) s = .next { s with ok := idLess (cidGet s.cid ca) (cidGet s.cid cb) } ∧
    exec (.cbool ca) s = .next { s with ok := decide ((cidGet s.cid ca).toList ≠ List.replicate 32 0x00) }

/-- CHASH writes the 8 bytes of its register at SLICE_OFF, read in SLICE_ORDER (R178). -/
def Obligations.ChashReadsTheConfiguredSlice : Prop :=
  ∀ (ca : CReg) (s : State), ∃ w : Word, exec (.chash ca) s = .next { s with res := w } ∧
    (s.platform.sliceOrder = .le →
      w.toNat = ∑ i ∈ Finset.range 8,
        ((cidGet s.cid ca).toList.getD (sliceStart s.platform.sliceOff + i) 0).toNat * 256 ^ i) ∧
    (s.platform.sliceOrder = .be →
      w.toNat = ∑ i ∈ Finset.range 8,
        ((cidGet s.cid ca).toList.getD (sliceStart s.platform.sliceOff + i) 0).toNat * 256 ^ (7 - i)) ∧
    sliceStart s.platform.sliceOff ∈ [0, 8, 16, 24] ∧
    ((cidGet s.cid ca).toList = List.replicate 32 0x00 → w = 0) ∧
    ((cidGet s.cid ca).toList = List.replicate 32 0xFF → w = 0xFFFFFFFFFFFFFFFF)

/-- CZERO and CMAX set one register to Zero or Max; Max is the greatest value and truthy (R179, R180). -/
def Obligations.CzeroAndCmaxSetTheDistinguishedValues : Prop :=
  (∀ (ca : CReg) (s : State),
    ∃ t u, exec (.czero ca) s = .next t ∧ t = { s with cid := t.cid } ∧
      (cidGet t.cid ca).toList = List.replicate 32 0x00 ∧ cidGet t.cid ca = cidGet State.reset.cid ca ∧
      (∀ r, r ≠ ca → cidGet t.cid r = cidGet s.cid r) ∧
      exec (.cmax ca) s = .next u ∧ u = { s with cid := u.cid } ∧
      (cidGet u.cid ca).toList = List.replicate 32 0xFF ∧
      (∀ r, r ≠ ca → cidGet u.cid r = cidGet s.cid r) ∧
      exec (.cbool ca) u = .next { u with ok := true }) ∧
  (∀ x y : ContentId, y.toList = List.replicate 32 0xFF → x ≠ y → idLess x y = true)

/-- XISHEX and XH2B classify and decode the character OPA[7:0] (R206, R207). -/
def Obligations.HexCharacterCommands : Prop :=
  (∀ opa opb opc : Word,
    decode ⟨0x00000030, opa, opb, opc⟩ = .ok (.xishex (opa.setWidth 8)) ∧
    decode ⟨0x00000031, opa, opb, opc⟩ = .ok (.xh2b (opa.setWidth 8))) ∧
  (∀ (c : Byte) (s : State),
    (0x30 ≤ c.toNat ∧ c.toNat ≤ 0x39 →
      exec (.xishex c) s = .next { s with ok := true } ∧
      exec (.xh2b c) s = .next { s with ok := true, res := BitVec.ofNat 64 (c.toNat - 0x30) }) ∧
    (0x41 ≤ c.toNat ∧ c.toNat ≤ 0x46 →
      exec (.xishex c) s = .next { s with ok := true } ∧
      exec (.xh2b c) s = .next { s with ok := true, res := BitVec.ofNat 64 (c.toNat - 0x41 + 10) }) ∧
    (0x61 ≤ c.toNat ∧ c.toNat ≤ 0x66 →
      exec (.xishex c) s = .next { s with ok := true } ∧
      exec (.xh2b c) s = .next { s with ok := true, res := BitVec.ofNat 64 (c.toNat - 0x61 + 10) }) ∧
    (¬(0x30 ≤ c.toNat ∧ c.toNat ≤ 0x39) → ¬(0x41 ≤ c.toNat ∧ c.toNat ≤ 0x46) →
      ¬(0x61 ≤ c.toNat ∧ c.toNat ≤ 0x66) →
      exec (.xishex c) s = .next { s with ok := false } ∧
      exec (.xh2b c) s = .next { s with ok := false, res := 0xFF }))

/-- HexChar gives a lower-case digit that HexVal decodes to its nibble (43_hex_codec.md R202, R203, R204). -/
def Obligations.HexDigitMapsAreInverse : Prop :=
  (∀ n : BitVec 4,
    (n.toNat ≤ 9 → (hexChar n).toNat = 0x30 + n.toNat) ∧ (9 < n.toNat → (hexChar n).toNat = 0x61 + n.toNat - 10) ∧
    (hexVal (hexChar n)).toNat = n.toNat) ∧
  (∀ c : Byte, (hexVal c).toNat ≤ 15 ↔ isHexChar c = true)

/-- BytesToHex gives the two digits of each byte, the high nibble first (R205). -/
def Obligations.BytesToHexWritesTwoDigitsAByte : Prop :=
  (∀ b : List Byte, (bytesToHex b).length = 2 * b.length ∧
    ∀ k (h : k < b.length),
      (bytesToHex b)[2 * k]? = some (hexChar (b[k].extractLsb' 4 4)) ∧
      (bytesToHex b)[2 * k + 1]? = some (hexChar (b[k].extractLsb' 0 4))) ∧
  bytesToHex [] = []

/-- XB2H writes the hex text of its source span and no other byte, or takes the first fault of its order (R208). -/
def Obligations.XbtohWritesTheHexTextOfItsSource : Prop :=
  ∀ (src len dst : Word) (s : State),
    (¬legalSpan src len.toNat → exec (.xb2h src len dst) s = .next (faulted s 0x05 src)) ∧
    (legalSpan src len.toNat → ¬legalSpan dst (2 * len.toNat) →
      exec (.xb2h src len dst) s = .next (faulted s 0x05 dst)) ∧
    (legalSpan src len.toNat → legalSpan dst (2 * len.toNat) →
      ((∃ a, (src.toNat ≤ a ∧ a < src.toNat + len.toNat) ∧ dst.toNat ≤ a ∧ a < dst.toNat + 2 * len.toNat) →
        exec (.xb2h src len dst) s = .next (faulted s 0x06 dst)) ∧
      ((∀ a, src.toNat ≤ a → a < src.toNat + len.toNat → a < dst.toNat ∨ dst.toNat + 2 * len.toNat ≤ a) →
        (∀ a, lowestDenied s.platform .read src len.toNat a →
          exec (.xb2h src len dst) s = .next (faulted s 0x09 (BitVec.ofNat 64 a))) ∧
        (admitsSpan s.platform .read src len.toNat →
          (∀ a, lowestDenied s.platform .write dst (2 * len.toNat) a →
            exec (.xb2h src len dst) s = .next (faulted s 0x09 (BitVec.ofNat 64 a))) ∧
          (admitsSpan s.platform .write dst (2 * len.toNat) →
            ∃ t, exec (.xb2h src len dst) s = .next t ∧ t = { s with mem := t.mem } ∧
              (∀ k, k < len.toNat →
                memGet t.mem (dst.toNat + 2 * k) = hexChar ((memGet s.mem (src.toNat + k)).extractLsb' 4 4) ∧
                memGet t.mem (dst.toNat + 2 * k + 1) = hexChar ((memGet s.mem (src.toNat + k)).extractLsb' 0 4)) ∧
              (∀ a, a < dst.toNat ∨ dst.toNat + 2 * len.toNat ≤ a → memGet t.mem a = memGet s.mem a) ∧
              (len = 0 → t = s)))))

/-- STAT shows BST, HDR_V, OK, FV and CAUSE in their bits and 0 in the reserved ones (R30). -/
def Obligations.StatShowsTheStateDirectly : Prop :=
  (∀ s : State,
    (s.stat.extractLsb' 0 2).toNat = (match s.bst with | .fresh => 0 | .accum => 1 | .final => 2) ∧
    s.stat.getLsbD 2 = s.hdrV ∧ s.stat.getLsbD 3 = s.ok ∧ s.stat.getLsbD 4 = s.fv ∧
    s.stat.extractLsb' 5 3 = 0 ∧ s.stat.extractLsb' 8 8 = s.cause ∧ s.stat.extractLsb' 16 16 = 0) ∧
  (∀ s t : State, t.bst = s.bst → t.hdrV = s.hdrV → t.ok = s.ok → t.fv = s.fv → t.cause = s.cause →
    t.stat = s.stat)

/-- Each element of the block changes only under the commands that R32 names as its writers (10_state.md R24, R27,
R28, R32, 20_memory.md R57, 92_eei_decisions.md D33). -/
def Obligations.CommandsWriteOnlyTheirRegisters : Prop :=
  ∀ (i : Instr) (s t : State), exec i s = .next t →
    (writesHeader i = false → t.hdr = s.hdr ∧ t.hdrV = s.hdrV) ∧
    (∀ r, destination i ≠ some r → cidGet t.cid r = cidGet s.cid r) ∧
    (writesBuilder i = false → t.bst = s.bst) ∧ (writesMessage i = false → t.m = s.m) ∧
    (writesRes i = false → t.res = s.res) ∧ (writesOk i = false → t.ok = s.ok) ∧
    (t.fv = false → t.cause = s.cause ∧ t.finfo = s.finfo) ∧ (s.fv = true → t.fv = true) ∧
    t.platform = s.platform ∧ t.rst = s.rst ∧ t.host = s.host

/-- A byte of memory changes only inside the span R57 lets the command write (20_memory.md R53, R57, 60_exceptions.md
R222). -/
def Obligations.CommandsStoreOnlyInsideTheirWriteSpan : Prop :=
  ∀ (i : Instr) (s t : State), exec i s = .next t →
    ∀ a, (∀ base n, writeSpan i = some (base, n) → a < base.toNat ∨ base.toNat + n ≤ a) →
      memGet t.mem a = memGet s.mem a

/-- A command that completes without a fault accesses only legal spans of admitted bytes (20_memory.md R51, R54, R57). -/
def Obligations.CompletedCommandsAccessAdmittedBytesOnly : Prop :=
  ∀ (i : Instr) (s t : State), s.fv = false → exec i s = .next t → t.fv = false →
    (∀ base n, readSpan i = some (base, n) → legalSpan base n ∧ admitsSpan s.platform .read base n) ∧
    (∀ base n, writeSpan i = some (base, n) → legalSpan base n ∧ admitsSpan s.platform .write base n)

/-- What a command does depends on no byte of memory outside the span R57 lets it read (20_memory.md R52, R57,
42_content_id.md R168). -/
def Obligations.CommandsDependOnlyOnTheirReadSpan : Prop :=
  ∀ (i : Instr) (s t : State) (mem : List Host.Cell),
    (∀ base n, readSpan i = some (base, n) →
      ∀ a, base.toNat ≤ a → a < base.toNat + n → memGet mem a = memGet s.mem a) →
    exec i s = .next t →
    ∃ u, exec i { s with mem := mem } = .next u ∧ u = { t with mem := u.mem } ∧
      (s.fv = false → t.fv = false → ∀ base n, writeSpan i = some (base, n) →
        ∀ a, base.toNat ≤ a → a < base.toNat + n → memGet u.mem a = memGet t.mem a)

/-- MemWrite sets each byte of its span and MemRead returns it; no other byte changes (20_memory.md R52, R53). -/
def Obligations.MemoryReadsBackWhatWasWritten : Prop :=
  ∀ (m : List Host.Cell) (addr : Nat) (s : List Byte),
    (∀ i (h : i < s.length), memGet (memWrite m addr s) (addr + i) = s[i]) ∧
    (∀ a, a < addr ∨ addr + s.length ≤ a → memGet (memWrite m addr s) a = memGet m a) ∧
    memRead (memWrite m addr s) addr s.length = s
end

