-- ==== Sys2Proof/Laws/Encode.lean ====
section
/-! SUPPORT. The fields of an encoded command word, and the fields every command word is made of. -/

namespace Sys2Proof

/-- The number a command word with the given fields stands for (R71). -/
theorem commandWord_toNat (op : Byte) (t : BitVec 4) (ra rb : BitVec 2) :
    (commandWord op t ra rb).toNat = op.toNat + 2 ^ 8 * t.toNat + 2 ^ 12 * ra.toNat + 2 ^ 14 * rb.toNat := by
  have h1 := op.isLt
  have h2 := t.isLt
  have h3 := ra.isLt
  have h4 := rb.isLt
  simp only [commandWord, BitVec.toNat_append]
  rw [← Nat.shiftLeft_add_eq_or_of_lt h1, ← Nat.shiftLeft_add_eq_or_of_lt h2, ← Nat.shiftLeft_add_eq_or_of_lt h3,
    ← Nat.shiftLeft_add_eq_or_of_lt h4]
  simp only [Nat.shiftLeft_eq]
  norm_num
  omega

section
variable (op : Byte) (t : BitVec 4) (ra rb : BitVec 2) (a b c : Word)

@[simp] theorem op_commandWord : (Command.mk (commandWord op t ra rb) a b c).op = op := by
  apply BitVec.eq_of_toNat_eq
  have h1 := op.isLt
  have h2 := t.isLt
  have h3 := ra.isLt
  have h4 := rb.isLt
  simp only [Command.op, BitVec.extractLsb'_toNat, commandWord_toNat, Nat.shiftRight_eq_div_pow]
  omega

@[simp] theorem t_commandWord : (Command.mk (commandWord op t ra rb) a b c).t = t := by
  apply BitVec.eq_of_toNat_eq
  have h1 := op.isLt
  have h2 := t.isLt
  have h3 := ra.isLt
  have h4 := rb.isLt
  simp only [Command.t, BitVec.extractLsb'_toNat, commandWord_toNat, Nat.shiftRight_eq_div_pow]
  omega

@[simp] theorem ra_commandWord : (Command.mk (commandWord op t ra rb) a b c).ra = ra := by
  apply BitVec.eq_of_toNat_eq
  have h1 := op.isLt
  have h2 := t.isLt
  have h3 := ra.isLt
  have h4 := rb.isLt
  simp only [Command.ra, BitVec.extractLsb'_toNat, commandWord_toNat, Nat.shiftRight_eq_div_pow]
  omega

@[simp] theorem rb_commandWord : (Command.mk (commandWord op t ra rb) a b c).rb = rb := by
  apply BitVec.eq_of_toNat_eq
  have h1 := op.isLt
  have h2 := t.isLt
  have h3 := ra.isLt
  have h4 := rb.isLt
  simp only [Command.rb, BitVec.extractLsb'_toNat, commandWord_toNat, Nat.shiftRight_eq_div_pow]
  omega

@[simp] theorem reserved_commandWord : (Command.mk (commandWord op t ra rb) a b c).reserved = 0 := by
  apply BitVec.eq_of_toNat_eq
  have h1 := op.isLt
  have h2 := t.isLt
  have h3 := ra.isLt
  have h4 := rb.isLt
  simp only [Command.reserved, BitVec.extractLsb'_toNat, commandWord_toNat, Nat.shiftRight_eq_div_pow,
    show (0 : BitVec 16).toNat = 0 from rfl]
  omega

end

@[simp] theorem ofIndex_index (r : CReg) : CReg.ofIndex r.index = r := by cases r <;> rfl

@[simp] theorem index_ofIndex (x : BitVec 2) : (CReg.ofIndex x).index = x := by revert x; decide

/-- A command word whose CW[31:16] is 0 is made of its own fields. -/
theorem commandWord_fields (c : Command) (h : c.reserved = 0) : commandWord c.op c.t c.ra c.rb = c.cw := by
  apply BitVec.eq_of_toNat_eq
  have hr : c.cw.toNat / 2 ^ 16 % 2 ^ 16 = 0 := by
    simpa [Command.reserved, BitVec.extractLsb'_toNat, Nat.shiftRight_eq_div_pow] using congrArg BitVec.toNat h
  have hl := c.cw.isLt
  simp only [commandWord_toNat, Command.op, Command.t, Command.ra, Command.rb, BitVec.extractLsb'_toNat,
    Nat.shiftRight_eq_div_pow]
  omega

end Sys2Proof
end

