-- ==== Sys2Proof/Laws/Memory.lean ====
section
/-! SUPPORT. The host memory: read after write, the bytes a write leaves alone, and the canonical form that every
memory operation keeps. -/

namespace Sys2Proof.Machine

@[simp] theorem memGet_nil (a : Nat) : memGet [] a = blankByte := rfl

theorem memGet_cons (k : Nat) (b : Byte) (m : List Host.Cell) (a : Nat) :
    memGet ((k, b) :: m) a = if k = a then b else memGet m a := rfl

@[simp] theorem memGet_memErase_same (m : List Host.Cell) (a : Nat) : memGet (memErase m a) a = blankByte := by
  induction m with
  | nil => rfl
  | cons c m ih =>
    obtain ⟨k, b⟩ := c
    by_cases h : k = a <;> simp [memErase, h, ih, memGet_cons]

theorem memGet_memErase_other (m : List Host.Cell) {a x : Nat} (hx : x ≠ a) :
    memGet (memErase m a) x = memGet m x := by
  induction m with
  | nil => rfl
  | cons c m ih =>
    obtain ⟨k, b⟩ := c
    by_cases h : k = a
    · subst h; simp [memErase, ih, memGet_cons, Ne.symm hx]
    · simp [memErase, h, ih, memGet_cons]

theorem memGet_memInsert_other (m : List Host.Cell) {a x : Nat} (v : Byte) (hx : x ≠ a) :
    memGet (memInsert m a v) x = memGet m x := by
  induction m with
  | nil => simp [memInsert, memGet_cons, Ne.symm hx]
  | cons c m ih =>
    obtain ⟨k, b⟩ := c
    by_cases h : a < k
    · simp [memInsert, h, memGet_cons, Ne.symm hx]
    · simp [memInsert, h, memGet_cons, ih]

theorem memGet_memInsert_memErase (m : List Host.Cell) (a : Nat) (v : Byte) :
    memGet (memInsert (memErase m a) a v) a = v := by
  induction m with
  | nil => simp [memErase, memInsert, memGet_cons]
  | cons c m ih =>
    obtain ⟨k, b⟩ := c
    by_cases h : k = a
    · simpa [memErase, h] using ih
    · by_cases h' : a < k
      · simp [memErase, h, memInsert, h', memGet_cons]
      · simp [memErase, h, memInsert, h', memGet_cons, ih]

/-- Reading the byte just written gives the value written. -/
@[simp] theorem memGet_memSet_same (m : List Host.Cell) (a : Nat) (v : Byte) : memGet (memSet m a v) a = v := by
  unfold memSet
  split
  · next h => simp [h]
  · exact memGet_memInsert_memErase m a v

/-- Writing one byte leaves every other byte alone. -/
theorem memGet_memSet_other (m : List Host.Cell) {a x : Nat} (v : Byte) (hx : x ≠ a) :
    memGet (memSet m a v) x = memGet m x := by
  unfold memSet
  split
  · exact memGet_memErase_other m hx
  · rw [memGet_memInsert_other _ v hx, memGet_memErase_other m hx]

/-- Writing a byte string leaves every byte outside its span alone. -/
theorem memGet_memWrite_outside (m : List Host.Cell) (a : Nat) (s : List Byte) {x : Nat}
    (hx : x < a ∨ a + s.length ≤ x) : memGet (memWrite m a s) x = memGet m x := by
  induction s generalizing m a with
  | nil => rfl
  | cons b s ih =>
    simp only [List.length_cons] at hx
    rw [memWrite, ih _ _ (by omega), memGet_memSet_other _ _ (by omega)]

/-- Byte i of a written span reads as byte i of the string written. -/
theorem memGet_memWrite_inside (m : List Host.Cell) (a : Nat) (s : List Byte) (i : Nat) (hi : i < s.length) :
    memGet (memWrite m a s) (a + i) = s[i] := by
  induction s generalizing m a i with
  | nil => simp at hi
  | cons b s ih =>
    rw [memWrite]
    cases i with
    | zero => simp [memGet_memWrite_outside]
    | succ i =>
      have := ih (memSet m a b) (a + 1) i (by simpa using hi)
      rw [show a + (i + 1) = a + 1 + i by omega, this]
      simp

@[simp] theorem length_memRead (m : List Host.Cell) (a n : Nat) : (memRead m a n).length = n := by
  induction n generalizing a with
  | zero => rfl
  | succ n ih => simp [memRead, ih]

/-- Byte i of a read span is the byte at its address. -/
@[simp] theorem getElem_memRead (m : List Host.Cell) (a n i : Nat) (hi : i < (memRead m a n).length) :
    (memRead m a n)[i] = memGet m (a + i) := by
  induction n generalizing a i with
  | zero => simp at hi
  | succ n ih =>
    cases i with
    | zero => simp [memRead]
    | succ i => simp [memRead, ih, show a + 1 + i = a + (i + 1) by omega]

/-- Two memories that read alike on a span give the same byte string there. -/
theorem memRead_congr {m m' : List Host.Cell} {a n : Nat} (h : ∀ x, a ≤ x → x < a + n → memGet m x = memGet m' x) :
    memRead m a n = memRead m' a n := by
  apply List.ext_getElem (by simp)
  intro i h1 h2
  simp only [length_memRead] at h1
  simp [h (a + i) (by omega) (by omega)]

/-- A read of two adjacent spans is the read of the whole span. -/
theorem memRead_append (m : List Host.Cell) (a k n : Nat) :
    memRead m a (k + n) = memRead m a k ++ memRead m (a + k) n := by
  induction k generalizing a with
  | zero => simp [memRead]
  | succ k ih =>
    rw [show k + 1 + n = (k + n) + 1 by omega, memRead, ih (a + 1), memRead]
    simp [show a + 1 + k = a + (k + 1) by omega]

/-- Reading a span just written gives the string written. -/
theorem memRead_memWrite_same (m : List Host.Cell) (a : Nat) (s : List Byte) :
    memRead (memWrite m a s) a s.length = s := by
  apply List.ext_getElem (by simp)
  intro i h1 h2
  simp [memGet_memWrite_inside _ _ _ _ h2]

/-! ### The canonical form -/

theorem memWfFrom_mono {lo lo' : Nat} {m : List Host.Cell} (h : memWfFrom lo m = true) (hl : lo' ≤ lo) :
    memWfFrom lo' m = true := by
  cases m with
  | nil => rfl
  | cons c m =>
    obtain ⟨k, b⟩ := c
    simp only [memWfFrom, Bool.and_eq_true, decide_eq_true_eq] at h ⊢
    exact ⟨⟨⟨by omega, h.1.1.2⟩, h.1.2⟩, h.2⟩

theorem memWfFrom_memErase {lo : Nat} {m : List Host.Cell} (a : Nat) (h : memWfFrom lo m = true) :
    memWfFrom lo (memErase m a) = true := by
  induction m generalizing lo with
  | nil => rfl
  | cons c m ih =>
    obtain ⟨k, b⟩ := c
    simp only [memWfFrom, Bool.and_eq_true, decide_eq_true_eq] at h
    by_cases hk : k = a
    · simpa [memErase, hk] using memWfFrom_mono (ih h.2) (by omega : lo ≤ k + 1)
    · simp [memErase, hk, memWfFrom, h.1.1.1, h.1.1.2, h.1.2, ih h.2]

theorem memWfFrom_memInsert {lo : Nat} {m : List Host.Cell} {a : Nat} {v : Byte} (h : memWfFrom lo m = true)
    (hl : lo ≤ a) (ha : a < Config.addrLimit) (hv : v ≠ blankByte) (hn : ∀ c ∈ m, c.1 ≠ a) :
    memWfFrom lo (memInsert m a v) = true := by
  induction m generalizing lo with
  | nil => simp [memInsert, memWfFrom, hl, ha, hv]
  | cons c m ih =>
    obtain ⟨k, b⟩ := c
    simp only [memWfFrom, Bool.and_eq_true, decide_eq_true_eq] at h
    have hne : k ≠ a := hn (k, b) (by simp)
    by_cases hk : a < k
    · simp [memInsert, hk, memWfFrom, hl, ha, hv, h.1.1.2, h.1.2, h.2]
    · simp [memInsert, hk, memWfFrom, h.1.1.1, h.1.1.2, h.1.2]
      exact ih h.2 (by omega) (fun c hc => hn c (by simp [hc]))

theorem memErase_no_entry (m : List Host.Cell) (a : Nat) : ∀ c ∈ memErase m a, c.1 ≠ a := by
  induction m with
  | nil => simp [memErase]
  | cons c m ih =>
    obtain ⟨k, b⟩ := c
    by_cases hk : k = a
    · simpa [memErase, hk] using ih
    · intro c hc
      simp only [memErase, hk, if_false, List.mem_cons] at hc
      rcases hc with rfl | hc
      · exact hk
      · exact ih c hc

/-- Writing one byte below 2^64 keeps the canonical form. -/
theorem memWf_memSet {m : List Host.Cell} {a : Nat} (v : Byte) (h : memWf m = true) (ha : a < Config.addrLimit) :
    memWf (memSet m a v) = true := by
  unfold memSet
  split
  · exact memWfFrom_memErase a h
  · next hv => exact memWfFrom_memInsert (memWfFrom_memErase a h) (Nat.zero_le a) ha hv (memErase_no_entry m a)

/-- Writing a byte string whose span ends by 2^64 keeps the canonical form. -/
theorem memWf_memWrite {m : List Host.Cell} {a : Nat} (s : List Byte) (h : memWf m = true)
    (ha : a + s.length ≤ Config.addrLimit) : memWf (memWrite m a s) = true := by
  induction s generalizing m a with
  | nil => exact h
  | cons b s ih =>
    simp only [List.length_cons] at ha
    exact ih (memWf_memSet b h (by omega)) (by omega)

/-- Memory right after reset is in canonical form. -/
theorem memWf_reset : memWf State.reset.mem = true := rfl

/-! ### Equal memories are equal data -/

theorem memGet_below {lo x : Nat} {m : List Host.Cell} (h : memWfFrom lo m = true) (hx : x < lo) :
    memGet m x = blankByte := by
  induction m generalizing lo with
  | nil => rfl
  | cons c m ih =>
    obtain ⟨k, b⟩ := c
    simp only [memWfFrom, Bool.and_eq_true, decide_eq_true_eq] at h
    rw [memGet_cons, if_neg (by omega)]
    exact ih h.2 (by omega)

/-- Two memories in canonical form that read alike at every address are the same list. -/
theorem mem_ext {lo : Nat} {m m' : List Host.Cell} (h : memWfFrom lo m = true) (h' : memWfFrom lo m' = true)
    (he : ∀ x, memGet m x = memGet m' x) : m = m' := by
  induction m generalizing lo m' with
  | nil =>
    cases m' with
    | nil => rfl
    | cons c m' =>
      obtain ⟨k, b⟩ := c
      simp only [memWfFrom, Bool.and_eq_true, decide_eq_true_eq] at h'
      have := he k
      simp [memGet_cons] at this
      simp [← this] at h'
  | cons c m ih =>
    obtain ⟨k, b⟩ := c
    simp only [memWfFrom, Bool.and_eq_true, decide_eq_true_eq, bne_iff_ne] at h
    cases m' with
    | nil =>
      have := he k
      simp [memGet_cons] at this
      exact absurd this h.1.2
    | cons c' m' =>
      obtain ⟨k', b'⟩ := c'
      simp only [memWfFrom, Bool.and_eq_true, decide_eq_true_eq, bne_iff_ne] at h'
      have hkk : k = k' := by
        rcases Nat.lt_trichotomy k k' with hlt | heq | hgt
        · have := he k
          rw [memGet_cons, if_pos rfl, memGet_cons, if_neg (by omega), memGet_below h'.2 (by omega)] at this
          exact absurd this h.1.2
        · exact heq
        · have := he k'
          rw [memGet_cons, if_neg (by omega), memGet_below h.2 (by omega), memGet_cons, if_pos rfl] at this
          exact absurd this.symm h'.1.2
      subst hkk
      have hb : b = b' := by simpa [memGet_cons] using he k
      subst hb
      congr 1
      refine ih h.2 h'.2 fun x => ?_
      by_cases hx : k = x
      · subst hx; rw [memGet_below h.2 (by omega), memGet_below h'.2 (by omega)]
      · simpa [memGet_cons, hx] using he x

end Sys2Proof.Machine
end

