-- ==== Sys2Proof/Laws/State.lean ====
section
/-! SUPPORT. What each update of the state leaves in each field, one lemma per field per update. -/

namespace Sys2Proof.Machine

@[simp] theorem State.setRes_hdr (s : State) (v : Word) : (s.setRes v).hdr = s.hdr := rfl
@[simp] theorem State.setRes_hdrV (s : State) (v : Word) : (s.setRes v).hdrV = s.hdrV := rfl
@[simp] theorem State.setRes_cid (s : State) (v : Word) : (s.setRes v).cid = s.cid := rfl
@[simp] theorem State.setRes_bst (s : State) (v : Word) : (s.setRes v).bst = s.bst := rfl
@[simp] theorem State.setRes_m (s : State) (v : Word) : (s.setRes v).m = s.m := rfl
@[simp] theorem State.setRes_res (s : State) (v : Word) : (s.setRes v).res = v := rfl
@[simp] theorem State.setRes_ok (s : State) (v : Word) : (s.setRes v).ok = s.ok := rfl
@[simp] theorem State.setRes_fv (s : State) (v : Word) : (s.setRes v).fv = s.fv := rfl
@[simp] theorem State.setRes_cause (s : State) (v : Word) : (s.setRes v).cause = s.cause := rfl
@[simp] theorem State.setRes_finfo (s : State) (v : Word) : (s.setRes v).finfo = s.finfo := rfl
@[simp] theorem State.setRes_mem (s : State) (v : Word) : (s.setRes v).mem = s.mem := rfl
@[simp] theorem State.setRes_platform (s : State) (v : Word) : (s.setRes v).platform = s.platform := rfl
@[simp] theorem State.setRes_rst (s : State) (v : Word) : (s.setRes v).rst = s.rst := rfl
@[simp] theorem State.setRes_host (s : State) (v : Word) : (s.setRes v).host = s.host := rfl

@[simp] theorem State.setOk_hdr (s : State) (b : Bool) : (s.setOk b).hdr = s.hdr := rfl
@[simp] theorem State.setOk_hdrV (s : State) (b : Bool) : (s.setOk b).hdrV = s.hdrV := rfl
@[simp] theorem State.setOk_cid (s : State) (b : Bool) : (s.setOk b).cid = s.cid := rfl
@[simp] theorem State.setOk_bst (s : State) (b : Bool) : (s.setOk b).bst = s.bst := rfl
@[simp] theorem State.setOk_m (s : State) (b : Bool) : (s.setOk b).m = s.m := rfl
@[simp] theorem State.setOk_res (s : State) (b : Bool) : (s.setOk b).res = s.res := rfl
@[simp] theorem State.setOk_ok (s : State) (b : Bool) : (s.setOk b).ok = b := rfl
@[simp] theorem State.setOk_fv (s : State) (b : Bool) : (s.setOk b).fv = s.fv := rfl
@[simp] theorem State.setOk_cause (s : State) (b : Bool) : (s.setOk b).cause = s.cause := rfl
@[simp] theorem State.setOk_finfo (s : State) (b : Bool) : (s.setOk b).finfo = s.finfo := rfl
@[simp] theorem State.setOk_mem (s : State) (b : Bool) : (s.setOk b).mem = s.mem := rfl
@[simp] theorem State.setOk_platform (s : State) (b : Bool) : (s.setOk b).platform = s.platform := rfl
@[simp] theorem State.setOk_rst (s : State) (b : Bool) : (s.setOk b).rst = s.rst := rfl
@[simp] theorem State.setOk_host (s : State) (b : Bool) : (s.setOk b).host = s.host := rfl

@[simp] theorem State.setCid_hdr (s : State) (r : CReg) (v : ContentId) : (s.setCid r v).hdr = s.hdr := rfl
@[simp] theorem State.setCid_hdrV (s : State) (r : CReg) (v : ContentId) : (s.setCid r v).hdrV = s.hdrV := rfl
@[simp] theorem State.setCid_cid (s : State) (r : CReg) (v : ContentId) :
    (s.setCid r v).cid = cidSet s.cid r v := rfl
@[simp] theorem State.setCid_bst (s : State) (r : CReg) (v : ContentId) : (s.setCid r v).bst = s.bst := rfl
@[simp] theorem State.setCid_m (s : State) (r : CReg) (v : ContentId) : (s.setCid r v).m = s.m := rfl
@[simp] theorem State.setCid_res (s : State) (r : CReg) (v : ContentId) : (s.setCid r v).res = s.res := rfl
@[simp] theorem State.setCid_ok (s : State) (r : CReg) (v : ContentId) : (s.setCid r v).ok = s.ok := rfl
@[simp] theorem State.setCid_fv (s : State) (r : CReg) (v : ContentId) : (s.setCid r v).fv = s.fv := rfl
@[simp] theorem State.setCid_cause (s : State) (r : CReg) (v : ContentId) :
    (s.setCid r v).cause = s.cause := rfl
@[simp] theorem State.setCid_finfo (s : State) (r : CReg) (v : ContentId) :
    (s.setCid r v).finfo = s.finfo := rfl
@[simp] theorem State.setCid_mem (s : State) (r : CReg) (v : ContentId) : (s.setCid r v).mem = s.mem := rfl
@[simp] theorem State.setCid_platform (s : State) (r : CReg) (v : ContentId) :
    (s.setCid r v).platform = s.platform := rfl
@[simp] theorem State.setCid_rst (s : State) (r : CReg) (v : ContentId) : (s.setCid r v).rst = s.rst := rfl
@[simp] theorem State.setCid_host (s : State) (r : CReg) (v : ContentId) : (s.setCid r v).host = s.host := rfl

@[simp] theorem State.setHdr_hdr (s : State) (h : Word) : (s.setHdr h).hdr = h := rfl
@[simp] theorem State.setHdr_hdrV (s : State) (h : Word) : (s.setHdr h).hdrV = true := rfl
@[simp] theorem State.setHdr_cid (s : State) (h : Word) : (s.setHdr h).cid = s.cid := rfl
@[simp] theorem State.setHdr_bst (s : State) (h : Word) : (s.setHdr h).bst = s.bst := rfl
@[simp] theorem State.setHdr_m (s : State) (h : Word) : (s.setHdr h).m = s.m := rfl
@[simp] theorem State.setHdr_res (s : State) (h : Word) : (s.setHdr h).res = s.res := rfl
@[simp] theorem State.setHdr_ok (s : State) (h : Word) : (s.setHdr h).ok = s.ok := rfl
@[simp] theorem State.setHdr_fv (s : State) (h : Word) : (s.setHdr h).fv = s.fv := rfl
@[simp] theorem State.setHdr_cause (s : State) (h : Word) : (s.setHdr h).cause = s.cause := rfl
@[simp] theorem State.setHdr_finfo (s : State) (h : Word) : (s.setHdr h).finfo = s.finfo := rfl
@[simp] theorem State.setHdr_mem (s : State) (h : Word) : (s.setHdr h).mem = s.mem := rfl
@[simp] theorem State.setHdr_platform (s : State) (h : Word) : (s.setHdr h).platform = s.platform := rfl
@[simp] theorem State.setHdr_rst (s : State) (h : Word) : (s.setHdr h).rst = s.rst := rfl
@[simp] theorem State.setHdr_host (s : State) (h : Word) : (s.setHdr h).host = s.host := rfl

@[simp] theorem State.setBuilder_hdr (s : State) (msg : List Byte) (b : BuilderState) :
    (s.setBuilder msg b).hdr = s.hdr := rfl
@[simp] theorem State.setBuilder_hdrV (s : State) (msg : List Byte) (b : BuilderState) :
    (s.setBuilder msg b).hdrV = s.hdrV := rfl
@[simp] theorem State.setBuilder_cid (s : State) (msg : List Byte) (b : BuilderState) :
    (s.setBuilder msg b).cid = s.cid := rfl
@[simp] theorem State.setBuilder_bst (s : State) (msg : List Byte) (b : BuilderState) :
    (s.setBuilder msg b).bst = b := rfl
@[simp] theorem State.setBuilder_m (s : State) (msg : List Byte) (b : BuilderState) :
    (s.setBuilder msg b).m = msg := rfl
@[simp] theorem State.setBuilder_res (s : State) (msg : List Byte) (b : BuilderState) :
    (s.setBuilder msg b).res = s.res := rfl
@[simp] theorem State.setBuilder_ok (s : State) (msg : List Byte) (b : BuilderState) :
    (s.setBuilder msg b).ok = s.ok := rfl
@[simp] theorem State.setBuilder_fv (s : State) (msg : List Byte) (b : BuilderState) :
    (s.setBuilder msg b).fv = s.fv := rfl
@[simp] theorem State.setBuilder_cause (s : State) (msg : List Byte) (b : BuilderState) :
    (s.setBuilder msg b).cause = s.cause := rfl
@[simp] theorem State.setBuilder_finfo (s : State) (msg : List Byte) (b : BuilderState) :
    (s.setBuilder msg b).finfo = s.finfo := rfl
@[simp] theorem State.setBuilder_mem (s : State) (msg : List Byte) (b : BuilderState) :
    (s.setBuilder msg b).mem = s.mem := rfl
@[simp] theorem State.setBuilder_platform (s : State) (msg : List Byte) (b : BuilderState) :
    (s.setBuilder msg b).platform = s.platform := rfl
@[simp] theorem State.setBuilder_rst (s : State) (msg : List Byte) (b : BuilderState) :
    (s.setBuilder msg b).rst = s.rst := rfl
@[simp] theorem State.setBuilder_host (s : State) (msg : List Byte) (b : BuilderState) :
    (s.setBuilder msg b).host = s.host := rfl

@[simp] theorem State.store_hdr (s : State) (addr : Word) (bs : List Byte) :
    (s.store addr bs).hdr = s.hdr := rfl
@[simp] theorem State.store_hdrV (s : State) (addr : Word) (bs : List Byte) :
    (s.store addr bs).hdrV = s.hdrV := rfl
@[simp] theorem State.store_cid (s : State) (addr : Word) (bs : List Byte) :
    (s.store addr bs).cid = s.cid := rfl
@[simp] theorem State.store_bst (s : State) (addr : Word) (bs : List Byte) :
    (s.store addr bs).bst = s.bst := rfl
@[simp] theorem State.store_m (s : State) (addr : Word) (bs : List Byte) : (s.store addr bs).m = s.m := rfl
@[simp] theorem State.store_res (s : State) (addr : Word) (bs : List Byte) :
    (s.store addr bs).res = s.res := rfl
@[simp] theorem State.store_ok (s : State) (addr : Word) (bs : List Byte) : (s.store addr bs).ok = s.ok := rfl
@[simp] theorem State.store_fv (s : State) (addr : Word) (bs : List Byte) : (s.store addr bs).fv = s.fv := rfl
@[simp] theorem State.store_cause (s : State) (addr : Word) (bs : List Byte) :
    (s.store addr bs).cause = s.cause := rfl
@[simp] theorem State.store_finfo (s : State) (addr : Word) (bs : List Byte) :
    (s.store addr bs).finfo = s.finfo := rfl
@[simp] theorem State.store_mem (s : State) (addr : Word) (bs : List Byte) :
    (s.store addr bs).mem = memWrite s.mem addr.toNat bs := rfl
@[simp] theorem State.store_platform (s : State) (addr : Word) (bs : List Byte) :
    (s.store addr bs).platform = s.platform := rfl
@[simp] theorem State.store_rst (s : State) (addr : Word) (bs : List Byte) :
    (s.store addr bs).rst = s.rst := rfl
@[simp] theorem State.store_host (s : State) (addr : Word) (bs : List Byte) :
    (s.store addr bs).host = s.host := rfl

@[simp] theorem State.raise_hdr (s : State) (c : Cause) (info : Word) : (s.raise c info).hdr = s.hdr := rfl
@[simp] theorem State.raise_hdrV (s : State) (c : Cause) (info : Word) : (s.raise c info).hdrV = s.hdrV := rfl
@[simp] theorem State.raise_cid (s : State) (c : Cause) (info : Word) : (s.raise c info).cid = s.cid := rfl
@[simp] theorem State.raise_bst (s : State) (c : Cause) (info : Word) : (s.raise c info).bst = s.bst := rfl
@[simp] theorem State.raise_m (s : State) (c : Cause) (info : Word) : (s.raise c info).m = s.m := rfl
@[simp] theorem State.raise_res (s : State) (c : Cause) (info : Word) : (s.raise c info).res = s.res := rfl
@[simp] theorem State.raise_ok (s : State) (c : Cause) (info : Word) : (s.raise c info).ok = s.ok := rfl
@[simp] theorem State.raise_fv (s : State) (c : Cause) (info : Word) : (s.raise c info).fv = true := rfl
@[simp] theorem State.raise_cause (s : State) (c : Cause) (info : Word) :
    (s.raise c info).cause = causeCode c := rfl
@[simp] theorem State.raise_finfo (s : State) (c : Cause) (info : Word) : (s.raise c info).finfo = info := rfl
@[simp] theorem State.raise_mem (s : State) (c : Cause) (info : Word) : (s.raise c info).mem = s.mem := rfl
@[simp] theorem State.raise_platform (s : State) (c : Cause) (info : Word) :
    (s.raise c info).platform = s.platform := rfl
@[simp] theorem State.raise_rst (s : State) (c : Cause) (info : Word) : (s.raise c info).rst = s.rst := rfl
@[simp] theorem State.raise_host (s : State) (c : Cause) (info : Word) : (s.raise c info).host = s.host := rfl

@[simp] theorem State.nextSample_hdr (s : State) : s.nextSample.hdr = s.hdr := rfl
@[simp] theorem State.nextSample_hdrV (s : State) : s.nextSample.hdrV = s.hdrV := rfl
@[simp] theorem State.nextSample_cid (s : State) : s.nextSample.cid = s.cid := rfl
@[simp] theorem State.nextSample_bst (s : State) : s.nextSample.bst = s.bst := rfl
@[simp] theorem State.nextSample_m (s : State) : s.nextSample.m = s.m := rfl
@[simp] theorem State.nextSample_res (s : State) : s.nextSample.res = s.res := rfl
@[simp] theorem State.nextSample_ok (s : State) : s.nextSample.ok = s.ok := rfl
@[simp] theorem State.nextSample_fv (s : State) : s.nextSample.fv = s.fv := rfl
@[simp] theorem State.nextSample_cause (s : State) : s.nextSample.cause = s.cause := rfl
@[simp] theorem State.nextSample_finfo (s : State) : s.nextSample.finfo = s.finfo := rfl
@[simp] theorem State.nextSample_mem (s : State) : s.nextSample.mem = s.mem := rfl
@[simp] theorem State.nextSample_platform (s : State) : s.nextSample.platform = s.platform := rfl
@[simp] theorem State.nextSample_rst (s : State) : s.nextSample.rst = s.rst.tail := rfl
@[simp] theorem State.nextSample_host (s : State) : s.nextSample.host = s.host := rfl

@[simp] theorem State.withHost_hdr (s : State) (rest : List HostAction) : (s.withHost rest).hdr = s.hdr := rfl
@[simp] theorem State.withHost_hdrV (s : State) (rest : List HostAction) :
    (s.withHost rest).hdrV = s.hdrV := rfl
@[simp] theorem State.withHost_cid (s : State) (rest : List HostAction) : (s.withHost rest).cid = s.cid := rfl
@[simp] theorem State.withHost_bst (s : State) (rest : List HostAction) : (s.withHost rest).bst = s.bst := rfl
@[simp] theorem State.withHost_m (s : State) (rest : List HostAction) : (s.withHost rest).m = s.m := rfl
@[simp] theorem State.withHost_res (s : State) (rest : List HostAction) : (s.withHost rest).res = s.res := rfl
@[simp] theorem State.withHost_ok (s : State) (rest : List HostAction) : (s.withHost rest).ok = s.ok := rfl
@[simp] theorem State.withHost_fv (s : State) (rest : List HostAction) : (s.withHost rest).fv = s.fv := rfl
@[simp] theorem State.withHost_cause (s : State) (rest : List HostAction) :
    (s.withHost rest).cause = s.cause := rfl
@[simp] theorem State.withHost_finfo (s : State) (rest : List HostAction) :
    (s.withHost rest).finfo = s.finfo := rfl
@[simp] theorem State.withHost_mem (s : State) (rest : List HostAction) : (s.withHost rest).mem = s.mem := rfl
@[simp] theorem State.withHost_platform (s : State) (rest : List HostAction) :
    (s.withHost rest).platform = s.platform := rfl
@[simp] theorem State.withHost_rst (s : State) (rest : List HostAction) : (s.withHost rest).rst = s.rst := rfl
@[simp] theorem State.withHost_host (s : State) (rest : List HostAction) : (s.withHost rest).host = rest := rfl

@[simp] theorem State.blockReset_hdr (s : State) : s.blockReset.hdr = 0 := rfl
@[simp] theorem State.blockReset_hdrV (s : State) : s.blockReset.hdrV = false := rfl
@[simp] theorem State.blockReset_cid (s : State) : s.blockReset.cid = ⟨zeroId, zeroId, zeroId, zeroId⟩ := rfl
@[simp] theorem State.blockReset_bst (s : State) : s.blockReset.bst = .fresh := rfl
@[simp] theorem State.blockReset_m (s : State) : s.blockReset.m = [] := rfl
@[simp] theorem State.blockReset_res (s : State) : s.blockReset.res = 0 := rfl
@[simp] theorem State.blockReset_ok (s : State) : s.blockReset.ok = false := rfl
@[simp] theorem State.blockReset_fv (s : State) : s.blockReset.fv = false := rfl
@[simp] theorem State.blockReset_cause (s : State) : s.blockReset.cause = 0 := rfl
@[simp] theorem State.blockReset_finfo (s : State) : s.blockReset.finfo = 0 := rfl
@[simp] theorem State.blockReset_mem (s : State) : s.blockReset.mem = s.mem := rfl
@[simp] theorem State.blockReset_platform (s : State) : s.blockReset.platform = s.platform := rfl
@[simp] theorem State.blockReset_rst (s : State) : s.blockReset.rst = s.rst := rfl
@[simp] theorem State.blockReset_host (s : State) : s.blockReset.host = s.host := rfl

end Sys2Proof.Machine
end

