-- ==== Sys2Proof/Laws/Values.lean ====
section
/-! SUPPORT. The values the commands compute with: byte strings, ContentId values, hex text and the order. -/

namespace Sys2Proof.Machine

/-! ### Byte strings -/

@[simp] theorem length_leBytes (v n : Nat) : (leBytes v n).length = n := by
  induction n generalizing v with
  | zero => rfl
  | succ n ih => simp [leBytes, ih]

theorem leNat_leBytes (v n : Nat) : leNat (leBytes v n) = v % 256 ^ n := by
  induction n generalizing v with
  | zero => simp [leBytes, leNat, Nat.mod_one]
  | succ n ih =>
    rw [leBytes, leNat, ih, BitVec.toNat_ofNat, show 256 ^ (n + 1) = 256 * 256 ^ n by rw [Nat.pow_succ, Nat.mul_comm],
      Nat.mod_mul]

theorem leNat_lt (s : List Byte) : leNat s < 256 ^ s.length := by
  induction s with
  | nil => simp [leNat]
  | cons b s ih =>
    have := b.isLt
    simp only [leNat, List.length_cons, Nat.pow_succ]
    omega

theorem take_leBytes (v k n : Nat) (h : k ≤ n) : (leBytes v n).take k = leBytes v k := by
  induction k generalizing v n with
  | zero => rfl
  | succ k ih =>
    cases n with
    | zero => omega
    | succ n => simp [leBytes, ih (v / 256) n (by omega)]

theorem leBytes_append (v a b : Nat) : leBytes v (a + b) = leBytes v a ++ leBytes (v / 256 ^ a) b := by
  induction a generalizing v with
  | zero => simp [leBytes]
  | succ a ih =>
    rw [show a + 1 + b = (a + b) + 1 by omega, leBytes, ih, leBytes]
    simp [Nat.div_div_eq_div_mul, Nat.pow_succ, Nat.mul_comm]

theorem leBytes_zero (n : Nat) : leBytes 0 n = List.replicate n 0 := by
  induction n with
  | zero => rfl
  | succ n ih => simp [leBytes, ih, List.replicate_succ]

/-- Byte i of the little-endian list of a 64-bit value is bits 8i+7 to 8i (R8, R21). -/
theorem getElem_leBytes_word (h : Word) (n i : Nat) (hi : i < (leBytes h.toNat n).length) :
    (leBytes h.toNat n)[i] = h.extractLsb' (8 * i) 8 := by
  have key : ∀ (v n i : Nat) (hi : i < (leBytes v n).length), (leBytes v n)[i] = BitVec.ofNat 8 (v / 256 ^ i) := by
    intro v n
    induction n generalizing v with
    | zero => intro i hi; simp [leBytes] at hi
    | succ n ih =>
      intro i hi
      cases i with
      | zero => simp [leBytes]
      | succ i => simp [leBytes, ih, Nat.div_div_eq_div_mul, Nat.pow_succ, Nat.mul_comm]
  rw [key]
  apply BitVec.eq_of_toNat_eq
  rw [BitVec.toNat_ofNat, BitVec.extractLsb'_toNat, Nat.shiftRight_eq_div_pow, Nat.pow_mul]

@[simp] theorem length_storageBytes (h : Word) : (storageBytes h).length = 8 := by simp [storageBytes]

/-! ### The byte count -/

/-- `bc` is monotone in the sense of R100: `bc(size) ≤ n` exactly when `size < 256^n`. -/
theorem byteCount_le_iff (size n : Nat) : byteCount size ≤ n ↔ size < 256 ^ n := by
  have h256 : 256 ^ n = 2 ^ (8 * n) := by rw [Nat.pow_mul]
  unfold byteCount bitLength
  split
  · next h => subst h; simp [h256]
  · next h => rw [h256, ← Nat.log2_lt h]; omega

/-- The byte count of a size below 2^48 is at most 6 (R100). -/
theorem byteCount_le_six {size : Nat} (h : size < 2 ^ 48) : byteCount size ≤ 6 :=
  (byteCount_le_iff size 6).mpr (by simpa using h)

/-! ### ContentId values -/

/-- Of a string of 32 bytes, `toContentId` is that string. -/
theorem toList_toContentId {s : List Byte} (h : s.length = 32) : (toContentId s).toList = s := by
  show (s ++ List.replicate 32 0).take 32 = s
  rw [← h, List.take_left']
  rfl

@[simp] theorem length_toList_id (x : ContentId) : x.toList.length = 32 := by simp

/-- `toContentId` gives back a value from its own bytes. -/
@[simp] theorem toContentId_toList (x : ContentId) : toContentId x.toList = x :=
  Vector.toList_inj.mp (toList_toContentId (length_toList_id x))

@[simp] theorem cidGet_cidSet_same (f : CidFile) (r : CReg) (v : ContentId) : cidGet (cidSet f r v) r = v := by
  cases r <;> rfl

theorem cidGet_cidSet_other (f : CidFile) {r q : CReg} (v : ContentId) (h : q ≠ r) :
    cidGet (cidSet f r v) q = cidGet f q := by
  cases r <;> cases q <;> first | rfl | exact absurd rfl h

theorem idEqual_iff (x y : ContentId) : idEqual x y = true ↔ x = y := by
  simp [idEqual]

/-! ### Hex text -/

/-- Every nibble's digit is a hex digit that decodes to it (R204). -/
theorem hexVal_hexChar (n : BitVec 4) : hexVal (hexChar n) = n.setWidth 8 := by
  revert n; decide

theorem isHexChar_hexChar (n : BitVec 4) : isHexChar (hexChar n) = true := by
  revert n; decide

@[simp] theorem length_bytesToHex (s : List Byte) : (bytesToHex s).length = 2 * s.length := by
  induction s with
  | nil => rfl
  | cons b s ih => simp [bytesToHex, ih]; omega

theorem length_hexDecode (s : List Byte) : (hexDecode s).length = s.length / 2 := by
  induction s using hexDecode.induct with
  | case1 hi lo s ih => simp only [hexDecode, List.length_cons, ih]; omega
  | case2 s h =>
    match s, h with
    | [], _ => rfl
    | [_], _ => simp [hexDecode]
    | _ :: _ :: _, h => exact absurd rfl (h _ _ _)

theorem all_isHexChar_bytesToHex (s : List Byte) : (bytesToHex s).all isHexChar = true := by
  induction s with
  | nil => rfl
  | cons b s ih => simp only [bytesToHex, List.all_cons, isHexChar_hexChar, ih, Bool.and_self]

theorem nibbles_join (b : Byte) :
    ((b.extractLsb' 4 4).setWidth 8 <<< 4) ||| (b.extractLsb' 0 4).setWidth 8 = b := by
  revert b; decide

/-- Decoding the hex text of a byte string gives the string back (R162, R205). -/
theorem hexDecode_bytesToHex (s : List Byte) : hexDecode (bytesToHex s) = s := by
  induction s with
  | nil => rfl
  | cons b s ih => simp only [bytesToHex, hexDecode, hexVal_hexChar, nibbles_join, ih]

/-- The text CTOH writes is valid hex text (R163, R170). -/
theorem isHexText_bytesToHex_id (x : ContentId) : isHexText (bytesToHex x.toList) = true := by
  simp [isHexText, Config.cidHexChars, all_isHexChar_bytesToHex]

/-! ### The order -/

theorem lexLess_irrefl (x : List Byte) : lexLess x x = false := by
  induction x with
  | nil => rfl
  | cons b x ih => simp [lexLess, ih]

theorem lexLess_asymm {x y : List Byte} (h : lexLess x y = true) : lexLess y x = false := by
  induction x generalizing y with
  | nil => cases y <;> simp [lexLess] at h
  | cons a x ih =>
    cases y with
    | nil => rfl
    | cons b y =>
      by_cases hab : a = b
      · subst hab; simpa [lexLess] using ih (by simpa [lexLess] using h)
      · simp only [lexLess, if_neg hab, if_neg (Ne.symm hab), decide_eq_true_eq, decide_eq_false_iff_not] at h ⊢
        omega

end Sys2Proof.Machine
end

