-- ==== Sys2Proof/Laws/Ops.lean ====
section
/-! SUPPORT. What each shared operation can do, said once: when a guard passes or takes its fault, and every next
state an operation can answer. -/

namespace Sys2Proof.Machine

/-! ### Admission -/

/-- No address of the span is denied exactly when every address is admitted. -/
theorem firstDenied_eq_none_iff (p : Platform) (k : Access) (a n : Nat) :
    firstDenied p k a n = none ↔ ∀ x, a ≤ x → x < a + n → admits p k x = true := by
  induction n generalizing a with
  | zero => simp [firstDenied]; omega
  | succ n ih =>
    simp only [firstDenied]
    split
    · next h =>
      rw [ih]
      constructor
      · intro hx x h1 h2
        rcases Nat.eq_or_lt_of_le h1 with rfl | h1
        · exact h
        · exact hx x (by omega) (by omega)
      · intro hx x h1 h2; exact hx x (by omega) (by omega)
    · next h =>
      simp only [reduceCtorEq, false_iff, not_forall]
      exact ⟨a, Nat.le_refl a, by omega, h⟩

/-- The address `firstDenied` answers is the lowest one of the span that is not admitted. -/
theorem firstDenied_eq_some_iff (p : Platform) (k : Access) (a n x : Nat) :
    firstDenied p k a n = some x ↔
      a ≤ x ∧ x < a + n ∧ admits p k x = false ∧ ∀ y, a ≤ y → y < x → admits p k y = true := by
  induction n generalizing a with
  | zero => simp [firstDenied]; omega
  | succ n ih =>
    simp only [firstDenied]
    split
    · next h =>
      rw [ih]
      constructor
      · rintro ⟨h1, h2, h3, h4⟩
        refine ⟨by omega, by omega, h3, fun y hy1 hy2 => ?_⟩
        rcases Nat.eq_or_lt_of_le hy1 with rfl | hy1
        · exact h
        · exact h4 y (by omega) hy2
      · rintro ⟨h1, h2, h3, h4⟩
        have hne : a ≠ x := by rintro rfl; simp [h] at h3
        exact ⟨by omega, by omega, h3, fun y hy1 hy2 => h4 y (by omega) hy2⟩
    · next h =>
      simp only [Option.some.injEq]
      constructor
      · rintro rfl
        exact ⟨Nat.le_refl a, by omega, by simpa using h, fun y hy1 hy2 => by omega⟩
      · rintro ⟨h1, h2, h3, h4⟩
        by_contra hne
        exact h (h4 a (Nat.le_refl a) (by omega))

/-! ### Guards that pass, and guards that take their fault -/

section
variable {s t : State} {k : Result}

@[simp] theorem takeFault_eq (c : Cause) (info : Word) (s : State) : takeFault c info s = .next (s.raise c info) := rfl

theorem guardType_pass {ty : BitVec 4} (h : ty.toNat ≤ 5) : guardType ty s k = k := if_neg (by omega)

theorem guardType_fault {ty : BitVec 4} (h : 5 < ty.toNat) :
    guardType ty s k = .next (s.raise .reservedType (ty.setWidth 64)) := if_pos h

theorem guardSize_pass {size : Word} (h : size.toNat < Config.sizeLimit) : guardSize size s k = k := if_neg (by omega)

theorem guardSize_fault {size : Word} (h : Config.sizeLimit ≤ size.toNat) :
    guardSize size s k = .next (s.raise .invalidSize size) := if_pos h

theorem guardHeader_pass (h : s.hdrV = true) (hw : headerWellFormed s.hdr = true) : guardHeader s k = k := by
  simp [guardHeader, h, hw]

theorem guardHeader_fault (h : s.hdrV = false) : guardHeader s k = .next (s.raise .hdrUnwritten 0) := by
  simp [guardHeader, h]

theorem guardHeader_malformed (h : s.hdrV = true) (hw : headerWellFormed s.hdr = false) :
    guardHeader s k = .fault .malformedHeader := by
  simp [guardHeader, h, hw]

theorem guardBuilder_pass {op : Byte} (h : s.bst ≠ .final) : guardBuilder op s k = k := if_neg h

theorem guardBuilder_fault {op : Byte} (h : s.bst = .final) :
    guardBuilder op s k = .next (s.raise .builderFinalized (op.setWidth 64)) := if_pos h

theorem guardMessage_pass {n : Nat} (h : s.m.length + n ≤ Config.maxMsg) : guardMessage n s k = k := if_neg (by omega)

theorem guardMessage_fault {n : Nat} (h : Config.maxMsg < s.m.length + n) :
    guardMessage n s k = .next (s.raise .msgTooLong (BitVec.ofNat 64 s.m.length)) := if_pos h

theorem guardRange_pass {addr : Word} {n : Nat} (h : legalSpan addr n) : guardRange addr n s k = k :=
  if_neg (by simpa [Config.addrLimit, legalSpan] using h)

theorem guardRange_fault {addr : Word} {n : Nat} (h : ¬legalSpan addr n) :
    guardRange addr n s k = .next (s.raise .addrRange addr) :=
  if_pos (by simpa [Config.addrLimit, legalSpan] using h)

theorem guardOverlap_pass {src dst : Word} {n : Nat} (h : n = 0 ∨ spansOverlap src dst n = false) :
    guardOverlap src dst n s k = k := by
  rcases h with h | h <;> simp [guardOverlap, h]

theorem guardOverlap_fault {src dst : Word} {n : Nat} (hn : 0 < n) (h : spansOverlap src dst n = true) :
    guardOverlap src dst n s k = .next (s.raise .overlap dst) := by
  simp [guardOverlap, h, hn]

theorem guardAccess_pass {kind : Access} {addr : Word} {n : Nat} (h : admitsSpan s.platform kind addr n) :
    guardAccess kind addr n s k = k := by
  rw [guardAccess, (firstDenied_eq_none_iff _ _ _ _).mpr h]

theorem guardAccess_fault {kind : Access} {addr : Word} {n a : Nat} (h : lowestDenied s.platform kind addr n a) :
    guardAccess kind addr n s k = .next (s.raise .memAccess (BitVec.ofNat 64 a)) := by
  rw [guardAccess, (firstDenied_eq_some_iff _ _ _ _ _).mpr h]
  rfl

theorem guardSpan_pass {kind : Access} {addr : Word} {n : Nat} (h : legalSpan addr n)
    (ha : admitsSpan s.platform kind addr n) : guardSpan kind addr n s k = k := by
  rw [guardSpan, guardRange_pass h, guardAccess_pass ha]

/-! ### Every next state a guard can answer -/

theorem guardType_next {ty : BitVec 4} (h : guardType ty s k = .next t) :
    (5 < ty.toNat ∧ t = s.raise .reservedType (ty.setWidth 64)) ∨ (ty.toNat ≤ 5 ∧ k = .next t) := by
  by_cases hc : 5 < ty.toNat
  · rw [guardType_fault hc] at h; cases h; exact .inl ⟨hc, rfl⟩
  · exact .inr ⟨by omega, by rwa [guardType_pass (by omega)] at h⟩

theorem guardSize_next {size : Word} (h : guardSize size s k = .next t) :
    (Config.sizeLimit ≤ size.toNat ∧ t = s.raise .invalidSize size) ∨
      (size.toNat < Config.sizeLimit ∧ k = .next t) := by
  by_cases hc : Config.sizeLimit ≤ size.toNat
  · rw [guardSize_fault hc] at h; cases h; exact .inl ⟨hc, rfl⟩
  · exact .inr ⟨by omega, by rwa [guardSize_pass (by omega)] at h⟩

theorem guardHeader_next (h : guardHeader s k = .next t) :
    (s.hdrV = false ∧ t = s.raise .hdrUnwritten 0) ∨
      (s.hdrV = true ∧ headerWellFormed s.hdr = true ∧ k = .next t) := by
  cases hv : s.hdrV with
  | false => rw [guardHeader_fault hv] at h; cases h; exact .inl ⟨rfl, rfl⟩
  | true =>
    cases hw : headerWellFormed s.hdr with
    | false => rw [guardHeader_malformed hv hw] at h; cases h
    | true => exact .inr ⟨rfl, rfl, by rwa [guardHeader_pass hv hw] at h⟩

theorem guardBuilder_next {op : Byte} (h : guardBuilder op s k = .next t) :
    (s.bst = .final ∧ t = s.raise .builderFinalized (op.setWidth 64)) ∨ (s.bst ≠ .final ∧ k = .next t) := by
  by_cases hc : s.bst = .final
  · rw [guardBuilder_fault hc] at h; cases h; exact .inl ⟨hc, rfl⟩
  · exact .inr ⟨hc, by rwa [guardBuilder_pass hc] at h⟩

theorem guardMessage_next {n : Nat} (h : guardMessage n s k = .next t) :
    (Config.maxMsg < s.m.length + n ∧ t = s.raise .msgTooLong (BitVec.ofNat 64 s.m.length)) ∨
      (s.m.length + n ≤ Config.maxMsg ∧ k = .next t) := by
  by_cases hc : Config.maxMsg < s.m.length + n
  · rw [guardMessage_fault hc] at h; cases h; exact .inl ⟨hc, rfl⟩
  · exact .inr ⟨by omega, by rwa [guardMessage_pass (by omega)] at h⟩

theorem guardRange_next {addr : Word} {n : Nat} (h : guardRange addr n s k = .next t) :
    (¬legalSpan addr n ∧ t = s.raise .addrRange addr) ∨ (legalSpan addr n ∧ k = .next t) := by
  by_cases hc : legalSpan addr n
  · exact .inr ⟨hc, by rwa [guardRange_pass hc] at h⟩
  · rw [guardRange_fault hc] at h; cases h; exact .inl ⟨hc, rfl⟩

theorem guardOverlap_next {src dst : Word} {n : Nat} (h : guardOverlap src dst n s k = .next t) :
    (0 < n ∧ spansOverlap src dst n = true ∧ t = s.raise .overlap dst) ∨
      ((n = 0 ∨ spansOverlap src dst n = false) ∧ k = .next t) := by
  by_cases hc : n = 0 ∨ spansOverlap src dst n = false
  · exact .inr ⟨hc, by rwa [guardOverlap_pass hc] at h⟩
  · rw [not_or, Bool.not_eq_false] at hc
    rw [guardOverlap_fault (by omega) hc.2] at h
    cases h
    exact .inl ⟨by omega, hc.2, rfl⟩

theorem guardAccess_next {kind : Access} {addr : Word} {n : Nat} (h : guardAccess kind addr n s k = .next t) :
    (∃ a, lowestDenied s.platform kind addr n a ∧ t = s.raise .memAccess (BitVec.ofNat 64 a)) ∨
      (admitsSpan s.platform kind addr n ∧ k = .next t) := by
  cases hc : firstDenied s.platform kind addr.toNat n with
  | none =>
    rw [firstDenied_eq_none_iff] at hc
    exact .inr ⟨hc, by rwa [guardAccess_pass hc] at h⟩
  | some a =>
    rw [firstDenied_eq_some_iff] at hc
    rw [guardAccess_fault hc] at h
    cases h
    exact .inl ⟨a, hc, rfl⟩

theorem guardSpan_next {kind : Access} {addr : Word} {n : Nat} (h : guardSpan kind addr n s k = .next t) :
    (∃ c info, t = s.raise c info) ∨ (legalSpan addr n ∧ admitsSpan s.platform kind addr n ∧ k = .next t) := by
  rcases guardRange_next h with ⟨-, rfl⟩ | ⟨hl, h⟩
  · exact .inl ⟨_, _, rfl⟩
  · rcases guardAccess_next h with ⟨a, -, rfl⟩ | ⟨ha, h⟩
    · exact .inl ⟨_, _, rfl⟩
    · exact .inr ⟨hl, ha, h⟩

/-! ### The append procedure, the hex parse and the host's write -/

/-- An append to a Builder that is not finalized, of a string that fits. -/
theorem appendBytes_pass {op : Byte} {bs : List Byte} (hb : s.bst ≠ .final)
    (hm : s.m.length + bs.length ≤ Config.maxMsg) :
    appendBytes op bs s = .next (s.setBuilder (s.m ++ bs) .accum) := by
  rw [appendBytes, guardBuilder_pass hb, guardMessage_pass hm]

/-- Everything an append can answer. -/
theorem appendBytes_next {op : Byte} {bs : List Byte} (h : appendBytes op bs s = .next t) :
    (∃ c info, t = s.raise c info) ∨
      (s.bst ≠ .final ∧ s.m.length + bs.length ≤ Config.maxMsg ∧ t = s.setBuilder (s.m ++ bs) .accum) := by
  rcases guardBuilder_next h with ⟨-, rfl⟩ | ⟨hb, h⟩
  · exact .inl ⟨_, _, rfl⟩
  · rcases guardMessage_next h with ⟨-, rfl⟩ | ⟨hm, h⟩
    · exact .inl ⟨_, _, rfl⟩
    · cases h; exact .inr ⟨hb, hm, rfl⟩

/-- An append of a memory span that meets every check of R139. -/
theorem appendSpan_pass {op : Byte} {addr len : Word} (hb : s.bst ≠ .final) (hl : legalSpan addr len.toNat)
    (hm : s.m.length + len.toNat ≤ Config.maxMsg) (ha : admitsSpan s.platform .read addr len.toNat) :
    appendSpan op addr len s =
      .next (s.setBuilder (s.m ++ memRead s.mem addr.toNat len.toNat) .accum) := by
  rw [appendSpan, guardBuilder_pass hb, guardRange_pass hl, guardMessage_pass hm, guardAccess_pass ha,
    appendBytes_pass hb (by simpa using hm)]

/-- Everything an append of a memory span can answer. -/
theorem appendSpan_next {op : Byte} {addr len : Word} (h : appendSpan op addr len s = .next t) :
    (∃ c info, t = s.raise c info) ∨
      (s.bst ≠ .final ∧ legalSpan addr len.toNat ∧ s.m.length + len.toNat ≤ Config.maxMsg ∧
        admitsSpan s.platform .read addr len.toNat ∧
        t = s.setBuilder (s.m ++ memRead s.mem addr.toNat len.toNat) .accum) := by
  rcases guardBuilder_next h with ⟨-, rfl⟩ | ⟨hb, h⟩
  · exact .inl ⟨_, _, rfl⟩
  rcases guardRange_next h with ⟨-, rfl⟩ | ⟨hl, h⟩
  · exact .inl ⟨_, _, rfl⟩
  rcases guardMessage_next h with ⟨-, rfl⟩ | ⟨hm, h⟩
  · exact .inl ⟨_, _, rfl⟩
  rcases guardAccess_next h with ⟨a, -, rfl⟩ | ⟨ha, h⟩
  · exact .inl ⟨_, _, rfl⟩
  rcases appendBytes_next h with hf | ⟨-, -, rfl⟩
  · exact .inl hf
  · exact .inr ⟨hb, hl, hm, ha, rfl⟩

/-- Everything the end of CFROMH can answer. -/
theorem parseHexId_next {ca : CReg} {text : List Byte} (h : parseHexId ca text s = .next t) :
    (isHexText text = true ∧ t = (s.setCid ca (toContentId (hexDecode text))).setOk true) ∨
      (isHexText text = false ∧ t = s.setOk false) := by
  unfold parseHexId at h
  split at h
  · next hx => cases h; exact .inl ⟨hx, rfl⟩
  · next hx => cases h; exact .inr ⟨by simpa using hx, rfl⟩

/-- Everything the host's write of a byte can answer. -/
theorem hostWrite_next {addr : Word} {b : Byte} (h : hostWrite addr b s = .next t) :
    (admits s.platform .read addr.toNat = true ∨ admits s.platform .write addr.toNat = true) ∧
      t = s.store addr [b] := by
  unfold hostWrite at h
  split at h
  · next hx => cases h; exact ⟨by simpa using hx, rfl⟩
  · cases h

end

end Sys2Proof.Machine
end

