-- ==== Sys2Proof/Laws/Exec.lean ====
section
/-! SUPPORT. Everything a command can do, said once: it records a fault, or it has its own effect under the conditions
its rule names. Invariants and frames follow from this without unfolding a meaning again. -/

namespace Sys2Proof.Machine

/-- The effect of an instruction that takes no fault: the conditions of its rule and the state it leaves. -/
def Effect (s : State) : Instr → State → Prop
  | .hmake t size, u => t.toNat ≤ 5 ∧ size.toNat < 2 ^ 48 ∧ u = s.setHdr (encodeHeader t size)
  | .hbytes, u => headerWellFormed s.hdr = true ∧ u = s.setRes (BitVec.ofNat 64 (headerLength s.hdr))
  | .hdata, u => headerWellFormed s.hdr = true ∧ u = s.setRes s.hdr
  | .htype, u => headerWellFormed s.hdr = true ∧ u = s.setRes ((headerType s.hdr).setWidth 64)
  | .hsize, u => headerWellFormed s.hdr = true ∧ u = s.setRes (headerSize s.hdr)
  | .hpres, u => headerWellFormed s.hdr = true ∧ u = s.setOk (headerPresent s.hdr)
  | .binit, u => u = s.setBuilder [] .fresh
  | .baph, u => s.m.length + (headerBytes s.hdr).length ≤ Config.maxMsg ∧
      u = s.setBuilder (s.m ++ headerBytes s.hdr) .accum
  | .bapb addr len, u | .bapt addr len, u =>
      s.m.length + len.toNat ≤ Config.maxMsg ∧ legalSpan addr len.toNat ∧
      admitsSpan s.platform .read addr len.toNat ∧
      u = s.setBuilder (s.m ++ memRead s.mem addr.toNat len.toNat) .accum
  | .bbuild ca, u => u = (s.setCid ca (Config.sha256 s.m)).setBuilder s.m .final
  | .cmake t ca addr len, u => legalSpan addr len.toNat ∧ admitsSpan s.platform .read addr len.toNat ∧
      u = s.setCid ca (Config.sha256 (objectBytes t len (memRead s.mem addr.toNat len.toNat)))
  | .cfromb ca addr len, u =>
      (len.toNat ≠ 32 ∧ u = s.setOk false) ∨
      (len.toNat = 32 ∧ legalSpan addr 32 ∧ admitsSpan s.platform .read addr 32 ∧
        u = (s.setCid ca (toContentId (memRead s.mem addr.toNat 32))).setOk true)
  | .cfromh ca addr len, u =>
      (len.toNat ≠ 64 ∧ u = s.setOk false) ∨
      (len.toNat = 64 ∧ legalSpan addr 64 ∧ admitsSpan s.platform .read addr 64 ∧
        ((isHexText (memRead s.mem addr.toNat 64) = true ∧
            u = (s.setCid ca (toContentId (hexDecode (memRead s.mem addr.toNat 64)))).setOk true) ∨
          (isHexText (memRead s.mem addr.toNat 64) = false ∧ u = s.setOk false)))
  | .cisb len, u => u = s.setOk (decide (len.toNat = 32))
  | .cish addr len, u =>
      (len.toNat ≠ 64 ∧ u = s.setOk false) ∨
      (len.toNat = 64 ∧ legalSpan addr 64 ∧ admitsSpan s.platform .read addr 64 ∧
        u = s.setOk (isHexText (memRead s.mem addr.toNat 64)))
  | .ctoh ca addr, u => legalSpan addr 64 ∧ admitsSpan s.platform .write addr 64 ∧
      u = s.store addr (bytesToHex (cidGet s.cid ca).toList)
  | .ctob ca addr, u => legalSpan addr 32 ∧ admitsSpan s.platform .write addr 32 ∧
      u = s.store addr (cidGet s.cid ca).toList
  | .ccmp ca cb, u => u = s.setRes (compareCode (cidGet s.cid ca) (cidGet s.cid cb))
  | .ceq ca cb, u => u = s.setOk (idEqual (cidGet s.cid ca) (cidGet s.cid cb))
  | .clt ca cb, u => u = s.setOk (idLess (cidGet s.cid ca) (cidGet s.cid cb))
  | .cbool ca, u => u = s.setOk (idTrue (cidGet s.cid ca))
  | .chash ca, u => u = s.setRes (scalarHash s.platform.sliceOff s.platform.sliceOrder (cidGet s.cid ca))
  | .czero ca, u => u = s.setCid ca zeroId
  | .cmax ca, u => u = s.setCid ca maxId
  | .xishex c, u => u = s.setOk (isHexChar c)
  | .xh2b c, u => u = (s.setRes ((hexVal c).setWidth 64)).setOk (isHexChar c)
  | .xb2h src len dst, u =>
      legalSpan src len.toNat ∧ legalSpan dst (2 * len.toNat) ∧ admitsSpan s.platform .read src len.toNat ∧
      admitsSpan s.platform .write dst (2 * len.toNat) ∧
      u = s.store dst (bytesToHex (memRead s.mem src.toNat len.toNat))

variable {s t : State}

/-- A header reader with result `u` answers HDR_UNWRITTEN or `u`. -/
theorem guardHeader_next_of_next {u : State} (h : guardHeader s (.next u) = .next t) :
    (∃ c info, t = s.raise c info) ∨ (headerWellFormed s.hdr = true ∧ t = u) := by
  rcases guardHeader_next h with ⟨-, rfl⟩ | ⟨-, hw, h⟩
  · exact .inl ⟨_, _, rfl⟩
  · cases h; exact .inr ⟨hw, rfl⟩

theorem execHmake_next {ty : BitVec 4} {size : Word} (h : execHmake ty size s = .next t) :
    (∃ c info, t = s.raise c info) ∨ Effect s (.hmake ty size) t := by
  rcases guardType_next h with ⟨-, rfl⟩ | ⟨ht, h⟩
  · exact .inl ⟨_, _, rfl⟩
  rcases guardSize_next h with ⟨-, rfl⟩ | ⟨hs, h⟩
  · exact .inl ⟨_, _, rfl⟩
  cases h
  exact .inr ⟨ht, hs, rfl⟩

theorem execBaph_next (h : execBaph s = .next t) :
    (∃ c info, t = s.raise c info) ∨ Effect s .baph t := by
  rcases guardHeader_next h with ⟨-, rfl⟩ | ⟨-, hw, h⟩
  · exact .inl ⟨_, _, rfl⟩
  rcases appendBytes_next h with hf | ⟨-, hm, rfl⟩
  · exact .inl hf
  · exact .inr ⟨hm, rfl⟩

theorem execBbuild_next {ca : CReg} (h : execBbuild ca s = .next t) :
    (∃ c info, t = s.raise c info) ∨ Effect s (.bbuild ca) t := by
  rcases guardBuilder_next h with ⟨-, rfl⟩ | ⟨-, h⟩
  · exact .inl ⟨_, _, rfl⟩
  cases h
  exact .inr rfl

theorem execCmake_next {ty : BitVec 4} {ca : CReg} {addr len : Word} (h : execCmake ty ca addr len s = .next t) :
    (∃ c info, t = s.raise c info) ∨ Effect s (.cmake ty ca addr len) t := by
  rcases guardType_next h with ⟨-, rfl⟩ | ⟨-, h⟩
  · exact .inl ⟨_, _, rfl⟩
  rcases guardRange_next h with ⟨-, rfl⟩ | ⟨hl, h⟩
  · exact .inl ⟨_, _, rfl⟩
  rcases guardSize_next h with ⟨-, rfl⟩ | ⟨-, h⟩
  · exact .inl ⟨_, _, rfl⟩
  rcases guardAccess_next h with ⟨a, -, rfl⟩ | ⟨ha, h⟩
  · exact .inl ⟨_, _, rfl⟩
  cases h
  exact .inr ⟨hl, ha, rfl⟩

theorem execCfromb_next {ca : CReg} {addr len : Word} (h : execCfromb ca addr len s = .next t) :
    (∃ c info, t = s.raise c info) ∨ Effect s (.cfromb ca addr len) t := by
  unfold execCfromb at h
  split at h
  · next hn => cases h; exact .inr (.inl ⟨hn, rfl⟩)
  · next hn =>
    rcases guardSpan_next h with hf | ⟨hl, ha, h⟩
    · exact .inl hf
    · cases h; exact .inr (.inr ⟨not_not.mp hn, hl, ha, rfl⟩)

theorem execCfromh_next {ca : CReg} {addr len : Word} (h : execCfromh ca addr len s = .next t) :
    (∃ c info, t = s.raise c info) ∨ Effect s (.cfromh ca addr len) t := by
  unfold execCfromh at h
  split at h
  · next hn => cases h; exact .inr (.inl ⟨hn, rfl⟩)
  · next hn =>
    rcases guardSpan_next h with hf | ⟨hl, ha, h⟩
    · exact .inl hf
    · exact .inr (.inr ⟨not_not.mp hn, hl, ha, parseHexId_next h⟩)

theorem execCish_next {addr len : Word} (h : execCish addr len s = .next t) :
    (∃ c info, t = s.raise c info) ∨ Effect s (.cish addr len) t := by
  unfold execCish at h
  split at h
  · next hn => cases h; exact .inr (.inl ⟨hn, rfl⟩)
  · next hn =>
    rcases guardSpan_next h with hf | ⟨hl, ha, h⟩
    · exact .inl hf
    · cases h; exact .inr (.inr ⟨not_not.mp hn, hl, ha, rfl⟩)

theorem execCtoh_next {ca : CReg} {addr : Word} (h : execCtoh ca addr s = .next t) :
    (∃ c info, t = s.raise c info) ∨ Effect s (.ctoh ca addr) t := by
  rcases guardSpan_next h with hf | ⟨hl, ha, h⟩
  · exact .inl hf
  · cases h; exact .inr ⟨hl, ha, rfl⟩

theorem execCtob_next {ca : CReg} {addr : Word} (h : execCtob ca addr s = .next t) :
    (∃ c info, t = s.raise c info) ∨ Effect s (.ctob ca addr) t := by
  rcases guardSpan_next h with hf | ⟨hl, ha, h⟩
  · exact .inl hf
  · cases h; exact .inr ⟨hl, ha, rfl⟩

theorem execXb2h_next {src len dst : Word} (h : execXb2h src len dst s = .next t) :
    (∃ c info, t = s.raise c info) ∨ Effect s (.xb2h src len dst) t := by
  rcases guardRange_next h with ⟨-, rfl⟩ | ⟨hs, h⟩
  · exact .inl ⟨_, _, rfl⟩
  rcases guardRange_next h with ⟨-, rfl⟩ | ⟨hd, h⟩
  · exact .inl ⟨_, _, rfl⟩
  rcases guardOverlap_next h with ⟨-, -, rfl⟩ | ⟨-, h⟩
  · exact .inl ⟨_, _, rfl⟩
  rcases guardAccess_next h with ⟨a, -, rfl⟩ | ⟨hr, h⟩
  · exact .inl ⟨_, _, rfl⟩
  rcases guardAccess_next h with ⟨a, -, rfl⟩ | ⟨hw, h⟩
  · exact .inl ⟨_, _, rfl⟩
  cases h
  exact .inr ⟨hs, hd, hr, hw, rfl⟩

/-- Every next state `exec` can answer: a recorded fault, or the instruction's own effect. -/
theorem exec_next {i : Instr} (h : exec i s = .next t) : (∃ c info, t = s.raise c info) ∨ Effect s i t := by
  cases i with
  | hmake ty size => exact execHmake_next h
  | hbytes => exact guardHeader_next_of_next h
  | hdata => exact guardHeader_next_of_next h
  | htype => exact guardHeader_next_of_next h
  | hsize => exact guardHeader_next_of_next h
  | hpres => exact guardHeader_next_of_next h
  | binit => cases h; exact .inr rfl
  | baph => exact execBaph_next h
  | bapb addr len =>
    rcases appendSpan_next h with hf | ⟨-, hl, hm, ha, rfl⟩
    · exact .inl hf
    · exact .inr ⟨hm, hl, ha, rfl⟩
  | bapt addr len =>
    rcases appendSpan_next h with hf | ⟨-, hl, hm, ha, rfl⟩
    · exact .inl hf
    · exact .inr ⟨hm, hl, ha, rfl⟩
  | bbuild ca => exact execBbuild_next h
  | cmake ty ca addr len => exact execCmake_next h
  | cfromb ca addr len => exact execCfromb_next h
  | cfromh ca addr len => exact execCfromh_next h
  | cisb len => cases h; exact .inr rfl
  | cish addr len => exact execCish_next h
  | ctoh ca addr => exact execCtoh_next h
  | ctob ca addr => exact execCtob_next h
  | ccmp ca cb => cases h; exact .inr rfl
  | ceq ca cb => cases h; exact .inr rfl
  | clt ca cb => cases h; exact .inr rfl
  | cbool ca => cases h; exact .inr rfl
  | chash ca => cases h; exact .inr rfl
  | czero ca => cases h; exact .inr rfl
  | cmax ca => cases h; exact .inr rfl
  | xishex c => cases h; exact .inr rfl
  | xh2b c => cases h; exact .inr rfl
  | xb2h src len dst => exact execXb2h_next h

/-- Every next state a step can answer. -/
theorem step_next (h : step s = .next t) :
    (s.rst.headD false = true ∧ t = s.nextSample.blockReset) ∨
    (s.rst.headD false = false ∧
      ((s.host = [] ∧ t = s.nextSample) ∨
       (∃ rest, s.host = .readStatus :: rest ∧ t = s.nextSample.withHost rest) ∨
       (∃ addr b rest, s.host = .writeByte addr b :: rest ∧ t = (s.nextSample.withHost rest).store addr [b]) ∨
       (∃ c rest, s.host = .command c :: rest ∧
         ((s.fv = true ∧ t = s.nextSample) ∨
          (s.fv = false ∧ perform c (s.nextSample.withHost rest) = .next t))))) := by
  unfold step at h
  split at h
  · next hr => cases h; exact .inl ⟨hr, rfl⟩
  · next hr =>
    refine .inr ⟨by simpa [State.rstAsserted] using hr, ?_⟩
    unfold hostStep at h
    split at h
    · next hh => cases h; exact .inl ⟨hh, rfl⟩
    · next rest hh => cases h; exact .inr (.inl ⟨rest, hh, rfl⟩)
    · next addr b rest hh =>
      obtain ⟨-, rfl⟩ := hostWrite_next h
      exact .inr (.inr (.inl ⟨addr, b, rest, hh, rfl⟩))
    · next c rest hh =>
      refine .inr (.inr (.inr ⟨c, rest, hh, ?_⟩))
      split at h
      · next hf => cases h; exact .inl ⟨hf, rfl⟩
      · next hf => exact .inr ⟨by simpa using hf, h⟩

/-- Every next state performing a presented command can answer. -/
theorem perform_next {c : Command} (h : perform c s = .next t) :
    (∃ i, decode c = .ok i ∧ exec i s = .next t) ∨
      ((∀ i, decode c ≠ .ok i) ∧ t = s.raise .illegalCommand (c.cw.setWidth 64)) := by
  unfold perform at h
  split at h
  · next i hd => exact .inl ⟨i, hd, h⟩
  · next e hd => cases h; exact .inr ⟨fun i => by simp [hd], rfl⟩

/-- Performing a list of commands: the first completes, and the rest run on what it left. -/
theorem performAll_cons {i : Instr} {is : List Instr} (hf : s.fv = false) (h : exec i s = .next t) :
    performAll (i :: is) s = performAll is t := by
  simp [performAll, hf, h]

@[simp] theorem performAll_nil (s : State) : performAll [] s = .next s := rfl

end Sys2Proof.Machine
end

