-- ==== Sys2Proof/Laws/PerInstr.lean ====
section
/-! SUPPORT. One lemma per instruction: its encoding is a well-formed command whose word selects a row of the opcode map
(R73). -/

namespace Sys2Proof.Laws.EncodesOneRow

/-- A command is well-formed as soon as its word selects a row, whatever its ports hold. -/
theorem wellFormed_of_word {w : CmdWord} (a b c : Word) (h : (opcodeMap.any fun r => r.selectedBy w) = true) :
    (Command.mk w a b c).wellFormed = true := h

/-- The encoding of the instruction is a well-formed command. -/
def Statement (i : Instr) : Prop := (encode i).wellFormed = true

theorem hmake (t : BitVec 4) (size : Word) : Statement (.hmake t size) :=
  wellFormed_of_word _ _ _ (by revert t; decide)

theorem hbytes : Statement .hbytes :=
  wellFormed_of_word _ _ _ (by decide)

theorem hdata : Statement .hdata :=
  wellFormed_of_word _ _ _ (by decide)

theorem htype : Statement .htype :=
  wellFormed_of_word _ _ _ (by decide)

theorem hsize : Statement .hsize :=
  wellFormed_of_word _ _ _ (by decide)

theorem hpres : Statement .hpres :=
  wellFormed_of_word _ _ _ (by decide)

theorem binit : Statement .binit :=
  wellFormed_of_word _ _ _ (by decide)

theorem baph : Statement .baph :=
  wellFormed_of_word _ _ _ (by decide)

theorem bapb (addr len : Word) : Statement (.bapb addr len) :=
  wellFormed_of_word _ _ _ (by decide)

theorem bapt (addr len : Word) : Statement (.bapt addr len) :=
  wellFormed_of_word _ _ _ (by decide)

theorem bbuild (ca : CReg) : Statement (.bbuild ca) :=
  wellFormed_of_word _ _ _ (by cases ca <;> decide)

theorem cmake (t : BitVec 4) (ca : CReg) (addr len : Word) : Statement (.cmake t ca addr len) :=
  wellFormed_of_word _ _ _ (by cases ca <;> revert t <;> decide)

theorem cfromb (ca : CReg) (addr len : Word) : Statement (.cfromb ca addr len) :=
  wellFormed_of_word _ _ _ (by cases ca <;> decide)

theorem cfromh (ca : CReg) (addr len : Word) : Statement (.cfromh ca addr len) :=
  wellFormed_of_word _ _ _ (by cases ca <;> decide)

theorem cisb (len : Word) : Statement (.cisb len) :=
  wellFormed_of_word _ _ _ (by decide)

theorem cish (addr len : Word) : Statement (.cish addr len) :=
  wellFormed_of_word _ _ _ (by decide)

theorem ctoh (ca : CReg) (addr : Word) : Statement (.ctoh ca addr) :=
  wellFormed_of_word _ _ _ (by cases ca <;> decide)

theorem ctob (ca : CReg) (addr : Word) : Statement (.ctob ca addr) :=
  wellFormed_of_word _ _ _ (by cases ca <;> decide)

theorem ccmp (ca cb : CReg) : Statement (.ccmp ca cb) :=
  wellFormed_of_word _ _ _ (by cases ca <;> cases cb <;> decide)

theorem ceq (ca cb : CReg) : Statement (.ceq ca cb) :=
  wellFormed_of_word _ _ _ (by cases ca <;> cases cb <;> decide)

theorem clt (ca cb : CReg) : Statement (.clt ca cb) :=
  wellFormed_of_word _ _ _ (by cases ca <;> cases cb <;> decide)

theorem cbool (ca : CReg) : Statement (.cbool ca) :=
  wellFormed_of_word _ _ _ (by cases ca <;> decide)

theorem chash (ca : CReg) : Statement (.chash ca) :=
  wellFormed_of_word _ _ _ (by cases ca <;> decide)

theorem czero (ca : CReg) : Statement (.czero ca) :=
  wellFormed_of_word _ _ _ (by cases ca <;> decide)

theorem cmax (ca : CReg) : Statement (.cmax ca) :=
  wellFormed_of_word _ _ _ (by cases ca <;> decide)

theorem xishex (c : Byte) : Statement (.xishex c) :=
  wellFormed_of_word _ _ _ (by decide)

theorem xh2b (c : Byte) : Statement (.xh2b c) :=
  wellFormed_of_word _ _ _ (by decide)

theorem xb2h (src len dst : Word) : Statement (.xb2h src len dst) :=
  wellFormed_of_word _ _ _ (by decide)

end Sys2Proof.Laws.EncodesOneRow
end

