-- ==== Sys2Proof/Tests/Slice0.lean ====
section
/-! SUPPORT. The model's own tests. Expected values come from spec/95_test_vectors.md (the row is named) or from the
encoding tables of spec/30_encoding.md. The last part gives each statement's hypotheses a concrete witness. -/

namespace Sys2Proof.Tests

open Sys2Proof.Machine

set_option maxRecDepth 8000

/-! ### Helpers -/

/-- The answer is a next state with the property `p`. -/
def nextHas (r : Result) (p : State → Bool) : Bool :=
  match r with
  | .next t => p t
  | .fault _ => false
  | .refused _ => false

/-- The answer is the fault `code` with `info`, and nothing else of `s` changed. -/
def faultsWith (s : State) (r : Result) (code : Byte) (info : Word) : Bool :=
  nextHas r fun t => decide (t = faulted s code info)

/-- The state after reset with the bytes `bs` at `a`. -/
def withBytes (a : Nat) (bs : List Byte) : State := { State.reset with mem := memWrite [] a bs }

/-- The state after reset, with the Builder finalized. -/
def finalState : State := { State.reset with bst := .final }

/-- The state after `hmake t, size`, from the header value L2.1 gives. -/
def headerState (h : Word) : State := { State.reset with hdr := h, hdrV := true }

/-- Every byte admitted for both kinds but `a`, which is admitted for none. -/
def allBut (a : Nat) : Platform := ⟨[⟨0, a, true, true⟩, ⟨a + 1, 2 ^ 64 - (a + 1), true, true⟩], .at0, .le⟩

/-- The bytes of "test" (L2.2). -/
def testBytes : List Byte := [0x74, 0x65, 0x73, 0x74]

/-- The value `E` of L2.3. -/
def idE : ContentId :=
  ⟨⟨[0xE3, 0xB0, 0xC4, 0x42, 0x98, 0xFC, 0x1C, 0x14, 0x9A, 0xFB, 0xF4, 0xC8, 0x99, 0x6F, 0xB9, 0x24] ++
    [0x27, 0xAE, 0x41, 0xE4, 0x64, 0x9B, 0x93, 0x4C, 0xA4, 0x95, 0x99, 0x1B, 0x78, 0x52, 0xB8, 0x55]⟩, rfl⟩

/-- The lower-case text of `E`, as P2 lists its bytes. -/
def textE : List Byte :=
  [0x65, 0x33, 0x62, 0x30, 0x63, 0x34, 0x34, 0x32, 0x39, 0x38, 0x66, 0x63, 0x31, 0x63, 0x31, 0x34] ++
  [0x39, 0x61, 0x66, 0x62, 0x66, 0x34, 0x63, 0x38, 0x39, 0x39, 0x36, 0x66, 0x62, 0x39, 0x32, 0x34] ++
  [0x32, 0x37, 0x61, 0x65, 0x34, 0x31, 0x65, 0x34, 0x36, 0x34, 0x39, 0x62, 0x39, 0x33, 0x34, 0x63] ++
  [0x61, 0x34, 0x39, 0x35, 0x39, 0x39, 0x31, 0x62, 0x37, 0x38, 0x35, 0x32, 0x62, 0x38, 0x35, 0x35]

/-- The upper-case text of `E` (L2.3). -/
def textEUpper : List Byte :=
  [0x45, 0x33, 0x42, 0x30, 0x43, 0x34, 0x34, 0x32, 0x39, 0x38, 0x46, 0x43, 0x31, 0x43, 0x31, 0x34] ++
  [0x39, 0x41, 0x46, 0x42, 0x46, 0x34, 0x43, 0x38, 0x39, 0x39, 0x36, 0x46, 0x42, 0x39, 0x32, 0x34] ++
  [0x32, 0x37, 0x41, 0x45, 0x34, 0x31, 0x45, 0x34, 0x36, 0x34, 0x39, 0x42, 0x39, 0x33, 0x34, 0x43] ++
  [0x41, 0x34, 0x39, 0x35, 0x39, 0x39, 0x31, 0x42, 0x37, 0x38, 0x35, 0x32, 0x42, 0x38, 0x35, 0x35]

/-- The value 00 ... 00 01 of L2.3 row 25. -/
def idOne : ContentId := ⟨⟨List.replicate 31 0x00 ++ [0x01]⟩, rfl⟩

/-- The value 01 00 ... 00 of L2.3 row 24. -/
def idHigh : ContentId := ⟨⟨0x01 :: List.replicate 31 0x00⟩, rfl⟩

/-- The value 00 FF ... FF of L2.3 row 24. -/
def idLow : ContentId := ⟨⟨0x00 :: List.replicate 31 0xFF⟩, rfl⟩

/-- The state after reset with `x` in CID[0] and `y` in CID[1]. -/
def withIds (x y : ContentId) : State := (State.reset.setCid .c0 x).setCid .c1 y

/-! ### Well-formedness: each check refuses an ill-formed term -/

theorem test_wellFormed_accepts_hmake : (Command.mk 0x00000101 4 0 0).wellFormed = true := by decide

theorem test_wellFormed_refuses_unassigned_op : (Command.mk 0x00000007 0 0 0).wellFormed = false := by decide

theorem test_wellFormed_refuses_unused_field : (Command.mk 0x00000102 0 0 0).wellFormed = false := by decide

theorem test_wellFormed_refuses_reserved_bits : (Command.mk 0x00010002 0 0 0).wellFormed = false := by decide

theorem test_wellFormed_accepts_tag : (Instr.hmake 5 0).wellFormed = true := by decide

theorem test_wellFormed_refuses_hmake_type_six : (Instr.hmake 6 0).wellFormed = false := by decide

theorem test_wellFormed_refuses_cmake_type_fifteen : (Instr.cmake 15 .c0 0 0).wellFormed = false := by decide

/-! ### Decoding: each word written out as 16 reserved bits, RB, RA, T, OP (R71, R80) -/

theorem test_decode_hmake :
    decode ⟨0b0000000000000000_00_00_0101_00000001, 7, 0, 0⟩ = .ok (.hmake 5 7) := by decide

theorem test_decode_hbytes : decode ⟨0b0000000000000000_00_00_0000_00000010, 0, 0, 0⟩ = .ok .hbytes := by decide

theorem test_decode_hdata : decode ⟨0b0000000000000000_00_00_0000_00000011, 0, 0, 0⟩ = .ok .hdata := by decide

theorem test_decode_htype : decode ⟨0b0000000000000000_00_00_0000_00000100, 0, 0, 0⟩ = .ok .htype := by decide

theorem test_decode_hsize : decode ⟨0b0000000000000000_00_00_0000_00000101, 0, 0, 0⟩ = .ok .hsize := by decide

theorem test_decode_hpres : decode ⟨0b0000000000000000_00_00_0000_00000110, 0, 0, 0⟩ = .ok .hpres := by decide

theorem test_decode_binit : decode ⟨0b0000000000000000_00_00_0000_00010000, 0, 0, 0⟩ = .ok .binit := by decide

theorem test_decode_baph : decode ⟨0b0000000000000000_00_00_0000_00010001, 0, 0, 0⟩ = .ok .baph := by decide

theorem test_decode_bapb :
    decode ⟨0b0000000000000000_00_00_0000_00010010, 0x1000, 4, 9⟩ = .ok (.bapb 0x1000 4) := by decide

theorem test_decode_bapt :
    decode ⟨0b0000000000000000_00_00_0000_00010011, 0x2000, 2, 9⟩ = .ok (.bapt 0x2000 2) := by decide

theorem test_decode_bbuild :
    decode ⟨0b0000000000000000_00_11_0000_00010100, 0, 0, 0⟩ = .ok (.bbuild .c3) := by decide

theorem test_decode_cmake :
    decode ⟨0b0000000000000000_00_10_0011_00010101, 0x1000, 4, 9⟩ = .ok (.cmake 3 .c2 0x1000 4) := by decide

theorem test_decode_cfromb :
    decode ⟨0b0000000000000000_00_10_0000_00100000, 0x3000, 32, 9⟩ = .ok (.cfromb .c2 0x3000 32) := by decide

theorem test_decode_cfromh :
    decode ⟨0b0000000000000000_00_01_0000_00100001, 0x5000, 64, 9⟩ = .ok (.cfromh .c1 0x5000 64) := by decide

theorem test_decode_cisb :
    decode ⟨0b0000000000000000_00_00_0000_00100010, 9, 32, 9⟩ = .ok (.cisb 32) := by decide

theorem test_decode_cish :
    decode ⟨0b0000000000000000_00_00_0000_00100011, 0x4000, 64, 9⟩ = .ok (.cish 0x4000 64) := by decide

theorem test_decode_ctoh :
    decode ⟨0b0000000000000000_00_10_0000_00100100, 0x5000, 9, 9⟩ = .ok (.ctoh .c2 0x5000) := by decide

theorem test_decode_ctob :
    decode ⟨0b0000000000000000_00_11_0000_00100101, 0x6000, 9, 9⟩ = .ok (.ctob .c3 0x6000) := by decide

theorem test_decode_ccmp :
    decode ⟨0b0000000000000000_01_10_0000_00100110, 0, 0, 0⟩ = .ok (.ccmp .c2 .c1) := by decide

theorem test_decode_ceq :
    decode ⟨0b0000000000000000_01_00_0000_00100111, 0, 0, 0⟩ = .ok (.ceq .c0 .c1) := by decide

theorem test_decode_clt :
    decode ⟨0b0000000000000000_11_01_0000_00101000, 0, 0, 0⟩ = .ok (.clt .c1 .c3) := by decide

theorem test_decode_cbool :
    decode ⟨0b0000000000000000_00_10_0000_00101001, 0, 0, 0⟩ = .ok (.cbool .c2) := by decide

theorem test_decode_chash :
    decode ⟨0b0000000000000000_00_01_0000_00101010, 0, 0, 0⟩ = .ok (.chash .c1) := by decide

theorem test_decode_czero :
    decode ⟨0b0000000000000000_00_11_0000_00101011, 0, 0, 0⟩ = .ok (.czero .c3) := by decide

theorem test_decode_cmax :
    decode ⟨0b0000000000000000_00_01_0000_00101100, 0, 0, 0⟩ = .ok (.cmax .c1) := by decide

theorem test_decode_xishex :
    decode ⟨0b0000000000000000_00_00_0000_00110000, 0x161, 9, 9⟩ = .ok (.xishex 0x61) := by decide

theorem test_decode_xh2b :
    decode ⟨0b0000000000000000_00_00_0000_00110001, 0xFFFFFFFFFFFFFF30, 9, 9⟩ = .ok (.xh2b 0x30) := by decide

theorem test_decode_xb2h :
    decode ⟨0b0000000000000000_00_00_0000_00110010, 0x7000, 3, 0x7100⟩ = .ok (.xb2h 0x7000 3 0x7100) := by decide

/-- Every unassigned OP of L2.5 rows 1 to 3 is rejected. -/
theorem test_decode_refuses_unassigned_ops :
    [0x00, 0x07, 0x0F, 0x16, 0x1F, 0x2D, 0x2F, 0x33, 0xFF].all
      (fun w => decide (decode ⟨BitVec.ofNat 32 w, 0, 0, 0⟩ = .error .unassignedOpcode)) = true := by decide

/-- Every word of L2.1 row 29, L2.2 row 35, L2.3 row 39 and L2.5 rows 5 to 8 with an unused field set is rejected. -/
theorem test_decode_refuses_unused_fields :
    [0x1003, 0x4115, 0x4029, 0x0102, 0x0114, 0xC014, 0x1101].all
      (fun w => decide (decode ⟨BitVec.ofNat 32 w, 0, 0, 0⟩ = .error .unusedFieldNotZero)) = true := by decide

/-- Every word of L2.3 row 38 and L2.5 rows 4 and 10 with a bit of CW[31:16] set is rejected. -/
theorem test_decode_refuses_reserved_bits :
    [0x14027, 0x10002, 0x80000001].all
      (fun w => decide (decode ⟨BitVec.ofNat 32 w, 0, 0, 0⟩ = .error .reservedNotZero)) = true := by decide

/-- The command words the programs P1 and P2 give for these instructions. -/
theorem test_encode_words :
    (encode (.hmake 1 4)).cw = 0x00000101 ∧ (encode (.bbuild .c1)).cw = 0x00001014 ∧
    (encode (.cmake 1 .c0 0x1000 4)).cw = 0x00000115 ∧ (encode (.ceq .c0 .c1)).cw = 0x00004027 ∧
    (encode (.ccmp .c0 .c2)).cw = 0x00008026 ∧ (encode (.cfromh .c3 0x4000 63)).cw = 0x00003021 ∧
    encode (.xb2h 0x7000 3 0x7100) = ⟨0x00000032, 0x7000, 3, 0x7100⟩ := by decide

theorem test_decodeTableWord :
    decodeTableWord 32 0x00001215 = some (.cmake 2 .c1 0 0) ∧ decodeTableWord 32 0x00011215 = none := by decide

/-! ### PackedHeader (L2.1) -/

/-- L2.1 rows 1, 5, 14, 15, 17 and 19. -/
theorem test_encodeHeader :
    encodeHeader 1 0 = 0x1 ∧ encodeHeader 1 0x100 = 0x10021 ∧
    encodeHeader 1 0xFFFFFFFFFFFF = 0x00FFFFFFFFFFFF61 ∧ encodeHeader 1 0x123456789ABC = 0x00123456789ABC61 ∧
    encodeHeader 0 5 = 0x510 ∧ encodeHeader 3 1000 = 0x3E823 := by decide

/-- L2.1 row 22. -/
theorem test_hmake :
    nextHas (exec (.hmake 2 0xFFFFFFFFFFFF) State.reset) (fun t => t.hdr == 0x00FFFFFFFFFFFF62 && t.hdrV) = true := by
  decide

/-- L2.1 rows 23 and 26: the type is checked before the size. -/
theorem test_hmake_faults :
    faultsWith State.reset (exec (.hmake 1 0x1000000000000) State.reset) 0x07 0x1000000000000 = true ∧
    faultsWith State.reset (exec (.hmake 15 0x1000000000000) State.reset) 0x02 15 = true := by decide

/-- L2.1 row 15. -/
theorem test_hbytes : nextHas (exec .hbytes (headerState 0x00123456789ABC61)) (fun t => t.res == 7) = true := by decide

/-- L2.1 row 27. -/
theorem test_hbytes_unwritten : faultsWith State.reset (exec .hbytes State.reset) 0x03 0 = true := by decide

/-- L2.1 row 18. -/
theorem test_hdata : nextHas (exec .hdata (headerState 0x10022)) (fun t => t.res == 0x10022) = true := by decide

/-- L2.1 row 19. -/
theorem test_htype : nextHas (exec .htype (headerState 0x3E823)) (fun t => t.res == 3) = true := by decide

/-- L2.1 row 15. -/
theorem test_hsize :
    nextHas (exec .hsize (headerState 0x00123456789ABC61)) (fun t => t.res == 0x123456789ABC) = true := by decide

/-- L2.1 rows 17 and 21. -/
theorem test_hpres :
    nextHas (exec .hpres (headerState 0x510)) (fun t => t.ok == false) = true ∧
    nextHas (exec .hpres (headerState 0x5)) (fun t => t.ok) = true := by decide

/-! ### Builder (L2.2) -/

/-- L2.2 row 36. -/
theorem test_binit :
    nextHas (exec .binit { finalState with m := testBytes }) (fun t => t.bst == .fresh && t.m == []) = true := by decide

/-- L2.2 row 7. -/
theorem test_baph :
    nextHas (exec .baph (headerState 0x411)) (fun t => t.bst == .accum && t.m == [0x11, 0x04]) = true := by decide

/-- L2.2 rows 24 and 25: HDR_UNWRITTEN comes before BUILDER_FINALIZED. -/
theorem test_baph_faults :
    faultsWith { headerState 0x411 with bst := .final } (exec .baph { headerState 0x411 with bst := .final }) 0x04 0x11 =
      true ∧
    faultsWith finalState (exec .baph finalState) 0x03 0 = true := by decide

/-- The example of R139. -/
theorem test_bapb :
    nextHas (exec (.bapb 0x1000 4) { withBytes 0x1000 testBytes with m := [0x11, 0x04], bst := .accum })
      (fun t => t.m == [0x11, 0x04, 0x74, 0x65, 0x73, 0x74] && t.bst == .accum) = true := by decide

/-- L2.2 rows 26, 27 and 31. -/
theorem test_bapb_faults :
    faultsWith finalState (exec (.bapb 0xFFFFFFFFFFFFFFFF 2) finalState) 0x04 0x12 = true ∧
    faultsWith State.reset (exec (.bapb 0xFFFFFFFFFFFFFFFF 2) State.reset) 0x05 0xFFFFFFFFFFFFFFFF = true ∧
    faultsWith { State.reset with platform := allBut 0x1002 }
      (exec (.bapb 0x1000 4) { State.reset with platform := allBut 0x1002 }) 0x09 0x1002 = true := by decide

/-- The example of R140. -/
theorem test_bapt :
    nextHas (exec (.bapt 0x2000 2) (withBytes 0x2000 [0x61, 0x62]))
      (fun t => t.m == [0x61, 0x62] && t.bst == .accum) = true := by decide

/-- L2.2 row 23. -/
theorem test_bapt_fault : faultsWith finalState (exec (.bapt 0x1000 4) finalState) 0x04 0x13 = true := by decide

/-- L2.2 row 1: the digest of the empty message goes to CID[0]. -/
theorem test_bbuild :
    exec (.bbuild .c0) State.reset =
      .next { State.reset with cid := ⟨Config.sha256 [], zeroId, zeroId, zeroId⟩, bst := .final } := rfl

/-- L2.2 row 21. -/
theorem test_bbuild_fault : faultsWith finalState (exec (.bbuild .c1) finalState) 0x04 0x14 = true := by decide

/-- L2.2 row 13: the message of `D_B4`. -/
theorem test_cmake :
    exec (.cmake 1 .c0 0x1000 4) (withBytes 0x1000 testBytes) =
      .next ((withBytes 0x1000 testBytes).setCid .c0 (Config.sha256 [0x11, 0x04, 0x74, 0x65, 0x73, 0x74])) := rfl

/-- L2.2 rows 32 and 34: RESERVED_TYPE first, ADDR_RANGE before INVALID_SIZE. -/
theorem test_cmake_faults :
    faultsWith State.reset (exec (.cmake 7 .c0 0x1000 4) State.reset) 0x02 7 = true ∧
    faultsWith State.reset (exec (.cmake 1 .c0 0xFFFFFFFFFFFFFFFF 0x1000000000000) State.reset) 0x05
      0xFFFFFFFFFFFFFFFF = true := by decide

/-! ### ContentId (L2.3) -/

/-- L2.3 row 1. -/
theorem test_cfromb :
    nextHas (exec (.cfromb .c2 0x3000 32) (withBytes 0x3000 idE.toList))
      (fun t => t.ok && decide (t.cid.c2 = idE) && decide (t.cid.c1 = zeroId)) = true := by decide

/-- L2.3 rows 3 and 4: a span that is not accessed is not checked. -/
theorem test_cfromb_range :
    faultsWith State.reset (exec (.cfromb .c2 0xFFFFFFFFFFFFFFF0 32) State.reset) 0x05 0xFFFFFFFFFFFFFFF0 = true ∧
    nextHas (exec (.cfromb .c2 0xFFFFFFFFFFFFFFF0 31) State.reset) (fun t => t.ok == false && t.fv == false) = true := by
  decide

/-- L2.3 row 6: upper case is accepted. -/
theorem test_cfromh :
    nextHas (exec (.cfromh .c0 0x4000 64) (withBytes 0x4000 textEUpper)) (fun t => t.ok && decide (t.cid.c0 = idE)) =
      true := by decide

/-- L2.3 row 9: one bad character leaves the register. -/
theorem test_cfromh_bad_character :
    nextHas (exec (.cfromh .c3 0x4200 64) ((withBytes 0x4200 (textE.take 63 ++ [0x67])).setCid .c3 maxId))
      (fun t => t.ok == false && decide (t.cid.c3 = maxId)) = true := by decide

/-- L2.3 row 12. -/
theorem test_cisb :
    nextHas (exec (.cisb 32) State.reset) (fun t => t.ok) = true ∧
    nextHas (exec (.cisb 0xFFFFFFFFFFFFFFFF) State.reset) (fun t => t.ok == false) = true := by decide

/-- L2.3 row 11. -/
theorem test_cish :
    nextHas (exec (.cish 0x4000 64) (withBytes 0x4000 textE)) (fun t => t.ok) = true ∧
    nextHas (exec (.cish 0x4000 0) (withBytes 0x4000 textE)) (fun t => t.ok == false) = true := by decide

/-- L1.8: the text ending "a0z" is rejected. -/
theorem test_cish_a0z :
    nextHas (exec (.cish 0x4000 64) (withBytes 0x4000 (List.replicate 61 0x30 ++ [0x61, 0x30, 0x7A])))
      (fun t => t.ok == false) = true := by decide

/-- L2.3 row 13. -/
theorem test_ctoh :
    nextHas (exec (.ctoh .c0 0x5000) (State.reset.setCid .c0 idE))
      (fun t => decide (memRead t.mem 0x5000 64 = textE) && memGet t.mem 0x4FFF == 0 && memGet t.mem 0x5040 == 0) =
      true := by decide

/-- L2.3 rows 17 and 18. -/
theorem test_ctoh_faults :
    faultsWith State.reset (exec (.ctoh .c0 0xFFFFFFFFFFFFFFC1) State.reset) 0x05 0xFFFFFFFFFFFFFFC1 = true ∧
    faultsWith { State.reset with platform := allBut 0x5010 }
      (exec (.ctoh .c0 0x5000) { State.reset with platform := allBut 0x5010 }) 0x09 0x5010 = true := by decide

/-- L2.3 row 19. -/
theorem test_ctob :
    nextHas (exec (.ctob .c0 0x6000) (State.reset.setCid .c0 idE))
      (fun t => decide (memRead t.mem 0x6000 32 = idE.toList)) = true := by decide

/-- L2.3 rows 21 and 22. -/
theorem test_ccmp :
    nextHas (exec (.ccmp .c0 .c1) (withIds zeroId maxId)) (fun t => t.res == 0xFFFFFFFFFFFFFFFF) = true ∧
    nextHas (exec (.ccmp .c1 .c0) (withIds zeroId maxId)) (fun t => t.res == 1) = true := by decide

/-- L2.3 row 24: byte 0 decides. -/
theorem test_ccmp_byte_zero_decides :
    nextHas (exec (.ccmp .c0 .c1) (withIds idHigh idLow)) (fun t => t.res == 1) = true := by decide

/-- L2.3 rows 25 and 27. -/
theorem test_ceq :
    nextHas (exec (.ceq .c0 .c1) (withIds zeroId idOne)) (fun t => t.ok == false) = true ∧
    nextHas (exec (.ceq .c1 .c1) (withIds zeroId idOne)) (fun t => t.ok) = true := by decide

/-- L2.3 rows 25 and 26. -/
theorem test_clt :
    nextHas (exec (.clt .c0 .c1) (withIds zeroId idOne)) (fun t => t.ok) = true ∧
    nextHas (exec (.clt .c0 .c0) (withIds zeroId idOne)) (fun t => t.ok == false) = true := by decide

/-- L2.3 row 28. -/
theorem test_cbool :
    nextHas (exec (.cbool .c0) (withIds zeroId idOne)) (fun t => t.ok == false) = true ∧
    nextHas (exec (.cbool .c1) (withIds zeroId idOne)) (fun t => t.ok) = true := by decide

/-- L2.3 rows 31 to 34. -/
theorem test_chash :
    scalarHash .at0 .le idE = 0x141CFC9842C4B0E3 ∧ scalarHash .at0 .be idE = 0xE3B0C44298FC1C14 ∧
    scalarHash .at8 .le idE = 0x24B96F99C8F4FB9A ∧ scalarHash .at8 .be idE = 0x9AFBF4C8996FB924 ∧
    scalarHash .at16 .le idE = 0x4C939B64E441AE27 ∧ scalarHash .at16 .be idE = 0x27AE41E4649B934C ∧
    scalarHash .at24 .le idE = 0x55B852781B9995A4 ∧ scalarHash .at24 .be idE = 0xA495991B7852B855 := by decide

/-- L2.3 row 36. -/
theorem test_czero :
    nextHas (exec (.czero .c1) (withIds maxId maxId))
      (fun t => decide (t.cid.c1.toList = List.replicate 32 0x00) && decide (t.cid.c0 = maxId)) = true := by decide

/-- L2.3 row 37. -/
theorem test_cmax :
    nextHas (exec (.cmax .c1) State.reset)
      (fun t => decide (t.cid.c1.toList = List.replicate 32 0xFF) && decide (t.cid.c0 = zeroId)) = true := by decide

/-! ### HexCodec (L2.4) -/

/-- The hex digits and the codes beside them, from L2.4. -/
theorem test_isHexChar :
    [0x30, 0x37, 0x39, 0x41, 0x46, 0x61, 0x66].all isHexChar = true ∧
    [0x00, 0x20, 0x2F, 0x3A, 0x40, 0x47, 0x60, 0x67, 0x78, 0x7A, 0x80, 0xFF].all (fun c => !isHexChar c) = true := by
  decide

theorem test_xishex :
    nextHas (exec (.xishex 0x46) State.reset) (fun t => t.ok) = true ∧
    nextHas (exec (.xishex 0x47) State.reset) (fun t => t.ok == false) = true := by decide

theorem test_xh2b :
    nextHas (exec (.xh2b 0x61) State.reset) (fun t => t.res == 10 && t.ok) = true ∧
    nextHas (exec (.xh2b 0x41) State.reset) (fun t => t.res == 10 && t.ok) = true ∧
    nextHas (exec (.xh2b 0x7A) State.reset) (fun t => t.res == 0xFF && t.ok == false) = true := by decide

/-- L2.4, XB2H rows 1 and 4: an adjacent destination is legal. -/
theorem test_xb2h :
    nextHas (exec (.xb2h 0x7000 3 0x7100) (withBytes 0x7000 [0x00, 0x9F, 0xFF]))
      (fun t => decide (memRead t.mem 0x7100 6 = [0x30, 0x30, 0x39, 0x66, 0x66, 0x66])) = true ∧
    nextHas (exec (.xb2h 0x7000 3 0x7003) (withBytes 0x7000 [0x00, 0x9F, 0xFF])) (fun t => t.fv == false) = true := by
  decide

/-- L2.4, XB2H rows 7, 9, 11 and 14. -/
theorem test_xb2h_faults :
    faultsWith State.reset (exec (.xb2h 0x7000 3 0x6FFB) State.reset) 0x06 0x6FFB = true ∧
    faultsWith State.reset (exec (.xb2h 0x7000 3 0xFFFFFFFFFFFFFFFB) State.reset) 0x05 0xFFFFFFFFFFFFFFFB = true ∧
    faultsWith State.reset (exec (.xb2h 0 0x8000000000000000 1) State.reset) 0x05 1 = true ∧
    faultsWith { State.reset with platform := allBut 0x7104 }
      (exec (.xb2h 0x7000 3 0x7100) { State.reset with platform := allBut 0x7104 }) 0x09 0x7104 = true := by decide

/-! ### Steps: the status port, the halt, reset and the presented command -/

/-- The end state of P4. -/
theorem test_stat : State.stat { finalState with ok := true, fv := true, cause := 0x04, finfo := 0x12 } = 0x041A := by
  decide

/-- L2.5 row 2. -/
theorem test_step_illegal_command :
    nextHas (step (State.reset.withFetchWord 32 0x7)) (fun t => t.fv && t.cause == 0x01 && t.finfo == 7) = true := by
  decide

/-- The presented command is performed from the state after reset, and consumed. -/
theorem test_step_runs_fetch_word :
    nextHas (step (State.reset.withFetchWord 32 0x102C))
      (fun t => decide (t = State.reset.setCid .c1 maxId)) = true := by decide

/-- P3 step 5: a halted block neither performs nor consumes the command; reset then clears the fault. -/
theorem test_step_halted_then_reset :
    nextHas (step { faulted State.reset 0x07 9 with host := [.command ⟨0x10, 0, 0, 0⟩] })
      (fun t => t.fv && decide (t.host = [.command ⟨0x10, 0, 0, 0⟩])) = true ∧
    nextHas (step { faulted State.reset 0x07 9 with rst := [true] }) (fun t => decide (t = State.reset)) = true := by
  decide

/-! ### Witnesses: concrete states and operands that meet each statement's hypotheses together -/

theorem legal {addr : Word} {n : Nat} (h : addr.toNat + n ≤ 2 ^ 64) : legalSpan addr n := h

theorem illegal {addr : Word} {n : Nat} (h : ¬addr.toNat + n ≤ 2 ^ 64) : ¬legalSpan addr n := h

theorem admitted {p : Platform} {k : Access} {addr : Word} {n : Nat} (h : firstDenied p k addr.toNat n = none) :
    admitsSpan p k addr n := (firstDenied_eq_none_iff _ _ _ _).mp h

theorem denied {p : Platform} {k : Access} {addr : Word} {n a : Nat} (h : firstDenied p k addr.toNat n = some a) :
    lowestDenied p k addr n a := (firstDenied_eq_some_iff _ _ _ _ _).mp h

/-- The platform of `State.reset` admits every legal span, however long. -/
theorem admitted_atReset {k : Access} {addr : Word} {n : Nat} (h : legalSpan addr n) :
    admitsSpan Platform.atReset k addr n := by
  intro a _ ha
  have : a < 18446744073709551616 := by unfold legalSpan at h; omega
  cases k <;> simpa [admits, Platform.atReset, regionPermits] using this

/-- A state with the longest header, a message, a finalized Builder and `CMAX c1` presented. -/
def busyState : State :=
  { headerState 0x00FFFFFFFFFFFF65 with
    bst := .final, m := testBytes, mem := [(0x1000, 0x74)], host := [.command ⟨0x102C, 0, 0, 0⟩] }

/-- A state with a fault recorded. -/
def haltedState : State :=
  { faulted (headerState 0x411) 0x07 0x1000000000000 with host := [.command ⟨0x10, 0, 0, 0⟩, .readStatus] }

/-- A state whose message has the greatest length. -/
def longState : State :=
  { headerState 0x411 with m := List.replicate (2 ^ 61 - 1) 0x00, bst := .accum, platform := allBut 0x1002 }

/-- A state whose message lacks one byte of the greatest length. -/
def almostLongState : State :=
  { headerState 0x5 with m := List.replicate (2 ^ 61 - 2) 0x00, bst := .accum, platform := allBut 0x1002 }

theorem longState_length : longState.m.length = 2 ^ 61 - 1 := List.length_replicate

theorem almostLongState_length : almostLongState.m.length = 2 ^ 61 - 2 := List.length_replicate

/-- A state with one byte admitted for neither kind. -/
def holedState : State := { withBytes 0x1000 testBytes with platform := allBut 0x1002 }

/-- The platform that admits no byte. -/
def noMemory : Platform := ⟨[], .at8, .be⟩

theorem busyState_inv : busyState.Inv :=
  ⟨fun _ => by decide, by decide, fun h => (by cases h), fun _ => ⟨rfl, rfl⟩, fun h => (by cases h), rfl⟩

theorem haltedState_inv : haltedState.Inv :=
  ⟨fun _ => by decide, by decide, fun _ => rfl, fun h => (by cases h), fun _ => by decide, rfl⟩

theorem witness_ResetTakesEveryElementToItsResetValue :
    ({ haltedState with rst := [true, false] } : State).rst = true :: [false] := rfl

theorem witness_StepKeepsInvariant :
    busyState.Inv ∧ step busyState = .next ({ busyState with host := [] }.setCid .c1 maxId) ∧
    haltedState.Inv ∧ step haltedState = .next haltedState :=
  ⟨busyState_inv, rfl, haltedState_inv, rfl⟩

theorem witness_AcceptedCommandsAlwaysComplete :
    busyState.Inv ∧ ({ busyState with platform := noMemory, host := [.writeByte 0 1] } : State).Inv ∧
    step { busyState with platform := noMemory, host := [.writeByte 0 1] } = .refused .hostWriteNotAdmitted :=
  ⟨busyState_inv, ⟨fun _ => by decide, by decide, fun h => (by cases h), fun _ => ⟨rfl, rfl⟩, fun h => (by cases h), rfl⟩,
    rfl⟩

theorem witness_StepPerformsThePresentedCommand :
    busyState.rst.headD false = false ∧ busyState.fv = false ∧
    busyState.host = .command ⟨0x102C, 0, 0, 0⟩ :: [] ∧ decode ⟨0x102C, 0, 0, 0⟩ = .ok (.cmax .c1) := by decide

/-- A word of each illegal kind, and a legal one. -/
theorem witness_IllegalCommandWordFaults :
    busyState.rst.headD false = false ∧ busyState.fv = false ∧
    busyState.host = .command ⟨0x102C, 0, 0, 0⟩ :: [] ∧
    (∀ r ∈ opcodeMap, r.op ≠ (0x00000033 : CmdWord).extractLsb' 0 8) ∧
    (∃ r ∈ opcodeMap, r.op = (0x0000402C : CmdWord).extractLsb' 0 8 ∧
      (Command.mk 0x0000402C 0 0 0).unusedZero r.format = false) ∧
    (0x0001102C : CmdWord).extractLsb' 16 16 ≠ 0 ∧
    (∃ r ∈ opcodeMap, r.op = (0x0000102C : CmdWord).extractLsb' 0 8 ∧
      (Command.mk 0x0000102C 0 0 0).unusedZero r.format = true) ∧
    (0x0000102C : CmdWord).extractLsb' 16 16 = 0 := by decide

theorem witness_HaltedBlockAcceptsNoCommand :
    haltedState.fv = true ∧ haltedState.rst.headD false = false ∧
    haltedState.host = .command ⟨0x10, 0, 0, 0⟩ :: [.readStatus] ∧ step haltedState = .next haltedState ∧
    ({ haltedState with rst := [true] } : State).rst.headD false = true :=
  ⟨rfl, rfl, rfl, rfl, rfl⟩

theorem witness_HostActionsLeaveTheBlockAlone :
    State.reset.rst.headD false = false ∧ State.reset.host = [] ∧
    ({ State.reset with host := [.readStatus] } : State).host = .readStatus :: [] ∧
    ({ State.reset with host := [.writeByte 0xFFFFFFFFFFFFFFFF 1] } : State).host =
      .writeByte 0xFFFFFFFFFFFFFFFF 1 :: [] ∧
    admits State.reset.platform .write (0xFFFFFFFFFFFFFFFF : Word).toNat = true ∧
    ({ State.reset with rst := [true] } : State).rst.headD false = true := by decide

theorem witness_FaultsArePrecise :
    ({ State.reset with host := [.command ⟨7, 0, 0, 0⟩] } : State).fv = false ∧
    step { State.reset with host := [.command ⟨7, 0, 0, 0⟩] } = .next (faulted State.reset 0x01 7) ∧
    (faulted State.reset 0x01 7).fv = true :=
  ⟨rfl, rfl, rfl⟩

theorem witness_HostCommandSequenceRunsInOrder :
    ({ State.reset with host := [.command ⟨0x2B, 0, 0, 0⟩, .command ⟨0x102C, 0, 0, 0⟩, .readStatus] } : State).host =
      [Instr.czero .c0, Instr.cmax .c1].map (fun i => HostAction.command (encode i)) ++ [.readStatus] ∧
    performAll [.czero .c0, .cmax .c1] { State.reset with host := [.readStatus] } =
      .next ({ State.reset with host := [.readStatus] }.setCid .c1 maxId) ∧
    ({ State.reset with host := [.readStatus] }.setCid .c1 maxId).fv = false :=
  ⟨by decide, rfl, rfl⟩

theorem witness_EndedRunStaysEnded : (withBytes 0x1000 testBytes).ended := ⟨rfl, rfl⟩

/-- Two commands that differ in the ports they do not use, and in the unused bits of a character operand. -/
theorem witness_DecodeIgnoresUnusedPorts :
    decode ⟨0x00000030, 0x161, 1, 2⟩ = decode ⟨0x00000030, 0x61, 3, 4⟩ ∧
    ((0x00000030 : CmdWord).extractLsb' 0 8).toNat ∈ [0x30, 0x31] ∧
    (0x161 : Word).extractLsb' 0 8 = (0x61 : Word).extractLsb' 0 8 ∧
    ((0x00000030 : CmdWord).extractLsb' 0 8).toNat ∉ opbUsers ∧
    ((0x00000032 : CmdWord).extractLsb' 0 8).toNat ∈ opaUsers ∧
    ((0x00000032 : CmdWord).extractLsb' 0 8).toNat ∈ opbUsers ∧
    ((0x00000032 : CmdWord).extractLsb' 0 8).toNat ∈ opcUsers := by decide

/-- The boundary sizes of R100. -/
theorem witness_ByteCountIsTheLeastThatHoldsTheSize :
    byteCount 0 = 0 ∧ byteCount 0xFF = 1 ∧ byteCount 0x100 = 2 ∧ byteCount 0xFFFFFFFFFFFF = 6 ∧
    byteCount 0x1000000000000 = 7 ∧ byteCount 0xFFFFFFFFFFFFFFFF = 8 ∧ (0x100 : Word).toNat < 256 ^ 2 := by decide

theorem witness_EncodeLaysOutTagAndSizeBytes :
    (5 : BitVec 4).toNat ≤ 5 ∧ (0xFFFFFFFFFFFF : Word).toNat < 2 ^ 48 := by decide

theorem witness_DecodingTheHeaderInvertsEncoding :
    (5 : BitVec 4).toNat ≤ 5 ∧ (0xFFFFFFFFFFFF : Word).toNat < 2 ^ 48 := by decide

theorem witness_HmakeBuildsTheHeaderOrFaults :
    5 < (6 : BitVec 4).toNat ∧ (5 : BitVec 4).toNat ≤ 5 ∧ 2 ^ 48 ≤ (0x1000000000000 : Word).toNat ∧
    (0xFFFFFFFFFFFF : Word).toNat < 2 ^ 48 := by decide

theorem witness_HeaderReadersAnswerFromHdr :
    busyState.hdrV = true ∧ headerWellFormed busyState.hdr = true ∧ (headerState 0).hdrV = true ∧
    headerWellFormed (headerState 0).hdr = true := by decide

theorem witness_HeaderReadersFaultWhileUnwritten : State.reset.hdrV = false := rfl

/-- Tag bit 7 set, a count of 7, a type of 6, and a byte past the encoding. -/
theorem witness_MalformedHeaderStopsEveryReader :
    (headerState 0x80).hdrV = true ∧ headerWellFormed (headerState 0x80).hdr = false ∧
    headerWellFormed (headerState 0x71).hdr = false ∧ headerWellFormed (headerState 0x06).hdr = false ∧
    headerWellFormed (headerState 0x101).hdr = false := by decide

theorem witness_HmakeThenReadingGivesTypeSizeAndLength :
    finalState.fv = false ∧ (5 : BitVec 4).toNat ≤ 5 ∧ (0xFFFFFFFFFFFF : Word).toNat < 2 ^ 48 := by decide

theorem witness_BaphAppendsTheHeaderBytes_finalized :
    busyState.hdrV = true ∧ headerWellFormed busyState.hdr = true ∧ busyState.bst = .final := by decide

theorem witness_BaphAppendsTheHeaderBytes_tooLong :
    longState.hdrV = true ∧ headerWellFormed longState.hdr = true ∧ longState.bst ≠ .final ∧
    2 ^ 61 - 1 < longState.m.length + (1 + (longState.hdr.extractLsb' 4 3).toNat) :=
  ⟨rfl, by decide, by decide, by rw [longState_length]; decide⟩

theorem witness_BaphAppendsTheHeaderBytes_fits :
    almostLongState.hdrV = true ∧ headerWellFormed almostLongState.hdr = true ∧ almostLongState.bst ≠ .final ∧
    almostLongState.m.length + (1 + (almostLongState.hdr.extractLsb' 4 3).toNat) ≤ 2 ^ 61 - 1 :=
  ⟨rfl, by decide, by decide, by rw [almostLongState_length]; decide⟩

theorem witness_SpanAppendsAddTheBytesOrFault_blocked :
    finalState.bst = .final ∧ State.reset.bst ≠ .final ∧ ¬legalSpan 0xFFFFFFFFFFFFFFFF (2 : Word).toNat :=
  ⟨rfl, by decide, illegal (by decide)⟩

theorem witness_SpanAppendsAddTheBytesOrFault_tooLong :
    longState.bst ≠ .final ∧ legalSpan 0xFFFFFFFFFFFFFFFF (1 : Word).toNat ∧
    2 ^ 61 - 1 < longState.m.length + (1 : Word).toNat :=
  ⟨by decide, legal (by decide), by rw [longState_length]; decide⟩

theorem witness_SpanAppendsAddTheBytesOrFault_denied :
    almostLongState.bst ≠ .final ∧ legalSpan 0x1002 (1 : Word).toNat ∧
    almostLongState.m.length + (1 : Word).toNat ≤ 2 ^ 61 - 1 ∧
    lowestDenied almostLongState.platform .read 0x1002 (1 : Word).toNat 0x1002 :=
  ⟨by decide, legal (by decide), by rw [almostLongState_length]; decide, denied rfl⟩

theorem witness_SpanAppendsAddTheBytesOrFault_appends :
    almostLongState.bst ≠ .final ∧ legalSpan 0xFFFFFFFFFFFFFFFF (1 : Word).toNat ∧
    almostLongState.m.length + (1 : Word).toNat ≤ 2 ^ 61 - 1 ∧
    admitsSpan almostLongState.platform .read 0xFFFFFFFFFFFFFFFF (1 : Word).toNat :=
  ⟨by decide, legal (by decide), by rw [almostLongState_length]; decide, admitted (by decide)⟩

/-- "test" in one span, and "te" and "st" in two. -/
theorem witness_SplitAppendsLeaveTheSameBuilder :
    (withBytes 0x1000 testBytes).fv = false ∧ (withBytes 0x1000 testBytes).bst ≠ .final ∧
    legalSpan 0x1000 (4 : Word).toNat ∧ legalSpan 0x1000 (2 : Word).toNat ∧ legalSpan 0x1002 (2 : Word).toNat ∧
    admitsSpan (withBytes 0x1000 testBytes).platform .read 0x1000 (4 : Word).toNat ∧
    admitsSpan (withBytes 0x1000 testBytes).platform .read 0x1000 (2 : Word).toNat ∧
    admitsSpan (withBytes 0x1000 testBytes).platform .read 0x1002 (2 : Word).toNat ∧
    (4 : Word).toNat = (2 : Word).toNat + (2 : Word).toNat ∧
    (withBytes 0x1000 testBytes).m.length + (4 : Word).toNat ≤ 2 ^ 61 - 1 ∧
    (∀ i, i < (2 : Word).toNat → memGet (withBytes 0x1000 testBytes).mem ((0x1000 : Word).toNat + i) =
      memGet (withBytes 0x1000 testBytes).mem ((0x1000 : Word).toNat + i)) ∧
    (∀ i, i < (2 : Word).toNat →
      memGet (withBytes 0x1000 testBytes).mem ((0x1000 : Word).toNat + (2 : Word).toNat + i) =
        memGet (withBytes 0x1000 testBytes).mem ((0x1002 : Word).toNat + i)) :=
  ⟨rfl, by decide, legal (by decide), legal (by decide), legal (by decide), admitted (by decide), admitted (by decide),
    admitted (by decide), rfl, by decide, fun _ _ => rfl, fun _ _ => rfl⟩

theorem witness_BbuildStoresTheDigestOnce : finalState.bst = .final ∧ State.reset.bst ≠ .final := by decide

theorem witness_CmakeStoresTheObjectIdOrFaults_refusedOperands :
    5 < (6 : BitVec 4).toNat ∧ (5 : BitVec 4).toNat ≤ 5 ∧ ¬legalSpan 0xFFFFFFFFFFFFFFFF (2 : Word).toNat ∧
    legalSpan 0xFFFF000000000000 (0x1000000000000 : Word).toNat ∧ 2 ^ 48 ≤ (0x1000000000000 : Word).toNat :=
  ⟨by decide, by decide, illegal (by decide), legal (by decide), by decide⟩

theorem witness_CmakeStoresTheObjectIdOrFaults_denied :
    (5 : BitVec 4).toNat ≤ 5 ∧ legalSpan 0x1000 (4 : Word).toNat ∧ (4 : Word).toNat < 2 ^ 48 ∧
    lowestDenied holedState.platform .read 0x1000 (4 : Word).toNat 0x1002 :=
  ⟨by decide, legal (by decide), by decide, denied rfl⟩

theorem witness_CmakeStoresTheObjectIdOrFaults_hashes :
    (5 : BitVec 4).toNat ≤ 5 ∧ legalSpan 0xFFFF000000000001 (0xFFFFFFFFFFFF : Word).toNat ∧
    (0xFFFFFFFFFFFF : Word).toNat < 2 ^ 48 ∧
    admitsSpan State.reset.platform .read 0xFFFF000000000001 (0xFFFFFFFFFFFF : Word).toNat :=
  ⟨by decide, legal (by decide), by decide, admitted_atReset (legal (by decide))⟩

theorem witness_CmakeAgreesWithTheBuilderSequence :
    finalState.fv = false ∧ (5 : BitVec 4).toNat ≤ 5 ∧ legalSpan 0xFFFF000000000001 (0xFFFFFFFFFFFF : Word).toNat ∧
    (0xFFFFFFFFFFFF : Word).toNat < 2 ^ 48 ∧
    admitsSpan finalState.platform .read 0xFFFF000000000001 (0xFFFFFFFFFFFF : Word).toNat :=
  ⟨rfl, by decide, legal (by decide), by decide, admitted_atReset (legal (by decide))⟩

theorem witness_CfrombLoadsExactlyThirtyTwoBytes :
    (31 : Word).toNat ≠ 32 ∧ (33 : Word).toNat ≠ 32 ∧ (32 : Word).toNat = 32 ∧ ¬legalSpan 0xFFFFFFFFFFFFFFE1 32 ∧
    legalSpan 0x0FE3 32 ∧ lowestDenied holedState.platform .read 0x0FE3 32 0x1002 ∧
    legalSpan 0xFFFFFFFFFFFFFFE0 32 ∧ admitsSpan holedState.platform .read 0xFFFFFFFFFFFFFFE0 32 :=
  ⟨by decide, by decide, rfl, illegal (by decide), legal (by decide), denied rfl, legal (by decide),
    admitted (by decide)⟩

/-- The checks of a 64-character text span, which CFROMH and CISH share. -/
theorem witness_CfromhParsesSixtyFourHexDigits_checks :
    (63 : Word).toNat ≠ 64 ∧ (65 : Word).toNat ≠ 64 ∧ (64 : Word).toNat = 64 ∧ ¬legalSpan 0xFFFFFFFFFFFFFFC1 64 ∧
    legalSpan 0x1002 64 ∧ lowestDenied holedState.platform .read 0x1002 64 0x1002 ∧
    legalSpan 0xFFFFFFFFFFFFFFC0 64 ∧ admitsSpan holedState.platform .read 0xFFFFFFFFFFFFFFC0 64 :=
  ⟨by decide, by decide, rfl, illegal (by decide), legal (by decide), denied rfl, legal (by decide),
    admitted (by decide)⟩

/-- A text whose last character is 'g', and one of 64 digits. -/
theorem witness_CfromhParsesSixtyFourHexDigits_texts :
    admitsSpan (withBytes 0x4200 (textE.take 63 ++ [0x67])).platform .read 0x4200 64 ∧
    (∃ i, i < 64 ∧
      isHexChar (memGet (withBytes 0x4200 (textE.take 63 ++ [0x67])).mem ((0x4200 : Word).toNat + i)) = false) ∧
    admitsSpan (withBytes 0x4000 textEUpper).platform .read 0x4000 64 ∧
    (∀ i, i < 64 → isHexChar (memGet (withBytes 0x4000 textEUpper).mem ((0x4000 : Word).toNat + i)) = true) :=
  ⟨admitted (by decide), ⟨63, by decide, by decide⟩, admitted (by decide), by decide⟩

theorem witness_CishClassifiesTheText_checks :
    (63 : Word).toNat ≠ 64 ∧ (64 : Word).toNat = 64 ∧ ¬legalSpan 0xFFFFFFFFFFFFFFC1 64 ∧ legalSpan 0x0FC3 64 ∧
    lowestDenied holedState.platform .read 0x0FC3 64 0x1002 ∧ legalSpan 0x4000 64 ∧
    admitsSpan (withBytes 0x4000 textE).platform .read 0x4000 64 :=
  ⟨by decide, rfl, illegal (by decide), legal (by decide), denied rfl, legal (by decide), admitted (by decide)⟩

theorem witness_CishClassifiesTheText_agrees :
    exec (.cish 0x4000 63) State.reset = .next State.reset ∧
    exec (.cfromh .c0 0x4000 63) State.reset = .next State.reset :=
  ⟨rfl, rfl⟩

theorem witness_CtohWritesLowerCaseHexText :
    ¬legalSpan 0xFFFFFFFFFFFFFFC1 64 ∧ legalSpan 0x0FC3 64 ∧
    lowestDenied holedState.platform .write 0x0FC3 64 0x1002 ∧ legalSpan 0xFFFFFFFFFFFFFFC0 64 ∧
    admitsSpan holedState.platform .write 0xFFFFFFFFFFFFFFC0 64 :=
  ⟨illegal (by decide), legal (by decide), denied rfl, legal (by decide), admitted (by decide)⟩

theorem witness_CtobWritesTheRawBytes :
    ¬legalSpan 0xFFFFFFFFFFFFFFE1 32 ∧ legalSpan 0x1002 32 ∧
    lowestDenied holedState.platform .write 0x1002 32 0x1002 ∧ legalSpan 0xFFFFFFFFFFFFFFE0 32 ∧
    admitsSpan holedState.platform .write 0xFFFFFFFFFFFFFFE0 32 :=
  ⟨illegal (by decide), legal (by decide), denied rfl, legal (by decide), admitted (by decide)⟩

theorem witness_HexTextRoundTripThroughMemory :
    (State.reset.setCid .c0 idE).fv = false ∧ legalSpan 0xFFFFFFFFFFFFFFC0 64 ∧
    admitsSpan (State.reset.setCid .c0 idE).platform .write 0xFFFFFFFFFFFFFFC0 64 ∧
    admitsSpan (State.reset.setCid .c0 idE).platform .read 0xFFFFFFFFFFFFFFC0 64 :=
  ⟨rfl, legal (by decide), admitted (by decide), admitted (by decide)⟩

theorem witness_RawBytesRoundTripThroughMemory :
    (State.reset.setCid .c0 idE).fv = false ∧ legalSpan 0xFFFFFFFFFFFFFFE0 32 ∧
    admitsSpan (State.reset.setCid .c0 idE).platform .write 0xFFFFFFFFFFFFFFE0 32 ∧
    admitsSpan (State.reset.setCid .c0 idE).platform .read 0xFFFFFFFFFFFFFFE0 32 :=
  ⟨rfl, legal (by decide), admitted (by decide), admitted (by decide)⟩

/-- Values that first differ at byte 31 and at byte 0. -/
theorem witness_LessIsTheLexicographicTotalOrder :
    idLess zeroId idOne = true ∧ idLess idOne idHigh = true ∧ zeroId ≠ idOne ∧ idLess idLow idHigh = true := by decide

theorem witness_CompareCommandsWriteTheOrderOfTwoRegisters :
    idLess (cidGet (withIds zeroId maxId).cid .c0) (cidGet (withIds zeroId maxId).cid .c1) = true ∧
    cidGet (withIds maxId maxId).cid .c0 = cidGet (withIds maxId maxId).cid .c1 ∧
    idLess (cidGet (withIds idOne zeroId).cid .c0) (cidGet (withIds idOne zeroId).cid .c1) = false ∧
    cidGet (withIds idOne zeroId).cid .c0 ≠ cidGet (withIds idOne zeroId).cid .c1 := by decide

theorem witness_ChashReadsTheConfiguredSlice :
    State.reset.platform.sliceOrder = .le ∧ ({ State.reset with platform := noMemory } : State).platform.sliceOrder = .be ∧
    (cidGet State.reset.cid .c3).toList = List.replicate 32 0x00 ∧
    (cidGet (withIds maxId maxId).cid .c0).toList = List.replicate 32 0xFF := by decide

theorem witness_CzeroAndCmaxSetTheDistinguishedValues :
    maxId.toList = List.replicate 32 0xFF ∧ idLow ≠ maxId ∧ CReg.c0 ≠ CReg.c3 := by decide

/-- The first and last code of each range of digits, and the codes beside them. -/
theorem witness_HexCharacterCommands :
    (0x30 ≤ (0x30 : Byte).toNat ∧ (0x39 : Byte).toNat ≤ 0x39) ∧ (0x41 ≤ (0x41 : Byte).toNat ∧ (0x46 : Byte).toNat ≤ 0x46) ∧
    (0x61 ≤ (0x61 : Byte).toNat ∧ (0x66 : Byte).toNat ≤ 0x66) ∧
    ∀ c ∈ ([0x2F, 0x3A, 0x40, 0x47, 0x60, 0x67] : List Byte), ¬(0x30 ≤ c.toNat ∧ c.toNat ≤ 0x39) ∧
      ¬(0x41 ≤ c.toNat ∧ c.toNat ≤ 0x46) ∧ ¬(0x61 ≤ c.toNat ∧ c.toNat ≤ 0x66) := by decide

theorem witness_HexDigitMapsAreInverse : (9 : BitVec 4).toNat ≤ 9 ∧ 9 < (10 : BitVec 4).toNat := by decide

theorem witness_BytesToHexWritesTwoDigitsAByte : 2 < ([0x00, 0x9F, 0xFF] : List Byte).length := by decide

/-- The range checks: the source span, then the destination span. -/
theorem witness_XbtohWritesTheHexTextOfItsSource_range :
    ¬legalSpan 0xFFFFFFFFFFFFFFFE (3 : Word).toNat ∧ legalSpan 0x7000 (3 : Word).toNat ∧
    ¬legalSpan 0xFFFFFFFFFFFFFFFB (2 * (3 : Word).toNat) :=
  ⟨illegal (by decide), legal (by decide), illegal (by decide)⟩

/-- Spans that share one byte, at the start and at the end of the source. -/
theorem witness_XbtohWritesTheHexTextOfItsSource_overlap :
    legalSpan 0x7000 (3 : Word).toNat ∧ legalSpan 0x7002 (2 * (3 : Word).toNat) ∧
    (∃ a, ((0x7000 : Word).toNat ≤ a ∧ a < (0x7000 : Word).toNat + (3 : Word).toNat) ∧
      (0x7002 : Word).toNat ≤ a ∧ a < (0x7002 : Word).toNat + 2 * (3 : Word).toNat) ∧
    legalSpan 0x6FFB (2 * (3 : Word).toNat) ∧
    (∃ a, ((0x7000 : Word).toNat ≤ a ∧ a < (0x7000 : Word).toNat + (3 : Word).toNat) ∧
      (0x6FFB : Word).toNat ≤ a ∧ a < (0x6FFB : Word).toNat + 2 * (3 : Word).toNat) :=
  ⟨legal (by decide), legal (by decide), ⟨0x7002, by decide, by decide⟩, legal (by decide),
    ⟨0x7000, by decide, by decide⟩⟩

/-- Adjacent spans do not overlap; a source or a destination byte is denied. -/
theorem witness_XbtohWritesTheHexTextOfItsSource_denied :
    (∀ a, (0x1000 : Word).toNat ≤ a → a < (0x1000 : Word).toNat + (3 : Word).toNat →
      a < (0x1003 : Word).toNat ∨ (0x1003 : Word).toNat + 2 * (3 : Word).toNat ≤ a) ∧
    lowestDenied holedState.platform .read 0x1000 (3 : Word).toNat 0x1002 ∧
    (∀ a, (0x1003 : Word).toNat ≤ a → a < (0x1003 : Word).toNat + (3 : Word).toNat →
      a < (0x0FFD : Word).toNat ∨ (0x0FFD : Word).toNat + 2 * (3 : Word).toNat ≤ a) ∧
    admitsSpan holedState.platform .read 0x1003 (3 : Word).toNat ∧
    lowestDenied holedState.platform .write 0x0FFD (2 * (3 : Word).toNat) 0x1002 :=
  ⟨fun a _ h => .inl h, denied rfl, fun a h _ => .inr h, admitted (by decide), denied rfl⟩

/-- A destination that ends at 2^64, and the empty source. -/
theorem witness_XbtohWritesTheHexTextOfItsSource_writes :
    legalSpan 0xFFFFFFFFFFFFFFF7 (3 : Word).toNat ∧ legalSpan 0xFFFFFFFFFFFFFFFA (2 * (3 : Word).toNat) ∧
    (∀ a, (0xFFFFFFFFFFFFFFF7 : Word).toNat ≤ a → a < (0xFFFFFFFFFFFFFFF7 : Word).toNat + (3 : Word).toNat →
      a < (0xFFFFFFFFFFFFFFFA : Word).toNat ∨ (0xFFFFFFFFFFFFFFFA : Word).toNat + 2 * (3 : Word).toNat ≤ a) ∧
    admitsSpan holedState.platform .read 0xFFFFFFFFFFFFFFF7 (3 : Word).toNat ∧
    admitsSpan holedState.platform .write 0xFFFFFFFFFFFFFFFA (2 * (3 : Word).toNat) ∧
    legalSpan 0x7000 (0 : Word).toNat ∧
    (∀ a, (0x7000 : Word).toNat ≤ a → a < (0x7000 : Word).toNat + (0 : Word).toNat →
      a < (0x7000 : Word).toNat ∨ (0x7000 : Word).toNat + 2 * (0 : Word).toNat ≤ a) :=
  ⟨legal (by decide), legal (by decide), fun a _ h => .inl h, admitted (by decide), admitted (by decide),
    legal (by decide), fun a _ h => .inl h⟩

theorem witness_StatShowsTheStateDirectly :
    (headerState 0x411).bst = (headerState 0x511).bst ∧ (headerState 0x411).hdrV = (headerState 0x511).hdrV ∧
    (headerState 0x411).ok = (headerState 0x511).ok ∧ (headerState 0x411).fv = (headerState 0x511).fv ∧
    (headerState 0x411).cause = (headerState 0x511).cause := by decide

theorem witness_CommandsWriteOnlyTheirRegisters :
    exec (.cmax .c1) State.reset = .next (State.reset.setCid .c1 maxId) ∧ destination (.cmax .c1) ≠ some .c0 ∧
    writesHeader (.cmax .c1) = false ∧ writesBuilder (.cmax .c1) = false ∧ writesMessage (.cmax .c1) = false ∧
    writesRes (.cmax .c1) = false ∧ writesOk (.cmax .c1) = false ∧ (State.reset.setCid .c1 maxId).fv = false ∧
    exec .binit haltedState = .next haltedState ∧ haltedState.fv = true :=
  ⟨rfl, by decide, rfl, rfl, rfl, rfl, rfl, rfl, rfl, rfl⟩

theorem witness_CommandsStoreOnlyInsideTheirWriteSpan :
    exec (.ctob .c0 0x6000) State.reset = .next (State.reset.store 0x6000 zeroId.toList) ∧
    ∀ base n, writeSpan (.ctob .c0 0x6000) = some (base, n) → 0x5FFF < base.toNat ∨ base.toNat + n ≤ 0x5FFF :=
  ⟨rfl, fun base n h => by cases h; exact .inl (by decide)⟩

theorem witness_CompletedCommandsAccessAdmittedBytesOnly :
    State.reset.fv = false ∧
    exec (.xb2h 0x7000 1 0x7001) State.reset = .next (State.reset.store 0x7001 [0x30, 0x30]) ∧
    (State.reset.store 0x7001 [0x30, 0x30]).fv = false ∧
    readSpan (.xb2h 0x7000 1 0x7001) = some (0x7000, 1) ∧ writeSpan (.xb2h 0x7000 1 0x7001) = some (0x7001, 2) :=
  ⟨rfl, rfl, rfl, rfl, rfl⟩

/-- Two memories that agree on the byte XB2H reads and differ in another. -/
theorem witness_CommandsDependOnlyOnTheirReadSpan :
    (∀ base n, readSpan (.xb2h 0x7000 1 0x7001) = some (base, n) →
      ∀ a, base.toNat ≤ a → a < base.toNat + n → memGet [(0x7003, 1)] a = memGet State.reset.mem a) ∧
    exec (.xb2h 0x7000 1 0x7001) State.reset = .next (State.reset.store 0x7001 [0x30, 0x30]) ∧
    State.reset.fv = false ∧ (State.reset.store 0x7001 [0x30, 0x30]).fv = false ∧
    writeSpan (.xb2h 0x7000 1 0x7001) = some (0x7001, 2) :=
  ⟨fun base n h a h1 h2 => by
      cases h
      have h2 : a < 0x7001 := h2
      rw [memGet_cons, if_neg (by omega)]
      rfl,
    rfl, rfl, rfl, rfl⟩

theorem witness_MemoryReadsBackWhatWasWritten :
    3 < testBytes.length ∧ (0xFFF < 0x1000 ∨ 0x1000 + testBytes.length ≤ 0xFFF) ∧
    (0x1004 < 0x1000 ∨ 0x1000 + testBytes.length ≤ 0x1004) := by decide

end Sys2Proof.Tests
end

/-! ### Scope: a step on a presented command (00_scope.md) -/

namespace Sys2Proof.Machine

variable {s : State} {c : Command} {rest : List HostAction} {i : Instr}

/-- With the reset input released, only this step's sample of it is used up before the host's action (R250). -/
theorem step_of_released (hr : s.rst.headD false = false) : step s = hostStep s.nextSample :=
  if_neg (Bool.eq_false_iff.mp hr)

/-- A block that is not halted takes the presented command off the host's list and performs it (R223). -/
theorem hostStep_command (hf : s.fv = false) (hh : s.host = .command c :: rest) :
    hostStep s = perform c (s.withHost rest) := by
  simp [hostStep, hh, hf]

/-- Performing a command word of the opcode map is the effect of its instruction (R70). -/
theorem perform_of_decode_ok (hd : decode c = .ok i) : perform c s = exec i s := by
  simp [perform, hd]

/-- A released, unhalted step on a presented command, whatever its word. -/
theorem step_command (hr : s.rst.headD false = false) (hf : s.fv = false) (hh : s.host = .command c :: rest) :
    step s = perform c (s.nextSample.withHost rest) :=
  (step_of_released hr).trans (hostStep_command hf hh)

/-- Settles O5: the step performs the command (`step_command`), and performing it is `exec` of what it decodes to. -/
theorem stepPerformsThePresentedCommand : Obligations.StepPerformsThePresentedCommand := by
  intro s c rest i hr hf hh hd
  calc step s = perform c (s.nextSample.withHost rest) := step_command hr hf hh
    _ = exec i (s.nextSample.withHost rest) := perform_of_decode_ok hd

end Sys2Proof.Machine

/-! ### Architectural state: the header HMAKE writes (40_packed_header.md R101 to R104) -/

namespace Sys2Proof.Machine

/-- The tag's two fields do not overlap: the count stands above the type (R83). -/
theorem toNat_tagByte (ty : BitVec 4) {n : Nat} (hn : n < 16) : (tagByte ty n).toNat = 16 * n + ty.toNat := by
  have hor : n <<< 4 ||| ty.toNat = n <<< 4 + ty.toNat := (Nat.shiftLeft_add_eq_or_of_lt ty.isLt n).symm
  have hlt : n <<< 4 < 2 ^ 8 := by rw [Nat.shiftLeft_eq]; omega
  rw [tagByte, BitVec.toNat_or, BitVec.toNat_shiftLeft, BitVec.toNat_ofNat, BitVec.toNat_setWidth,
    Nat.mod_eq_of_lt (show n < 2 ^ 8 by omega), Nat.mod_eq_of_lt hlt,
    Nat.mod_eq_of_lt (show ty.toNat < 2 ^ 8 by have := ty.isLt; omega), hor, Nat.shiftLeft_eq]
  omega

/-- The value of an encoded header: the tag below the size, with no wrap (R101). -/
theorem toNat_encodeHeader (ty : BitVec 4) {size : Word} (h : size.toNat < 2 ^ 48) :
    (encodeHeader ty size).toNat = (16 * byteCount size.toNat + ty.toNat) + 256 * size.toNat := by
  have hn := byteCount_le_six h
  have htag := toNat_tagByte ty (show byteCount size.toNat < 16 by omega)
  have hor := Nat.shiftLeft_add_eq_or_of_lt (tagByte ty (byteCount size.toNat)).isLt size.toNat
  have hlt : size.toNat <<< 8 < 2 ^ 64 := by rw [Nat.shiftLeft_eq]; omega
  rw [encodeHeader, BitVec.toNat_or, BitVec.toNat_shiftLeft, Nat.mod_eq_of_lt hlt, BitVec.toNat_setWidth,
    Nat.mod_eq_of_lt (show (tagByte ty (byteCount size.toNat)).toNat < 2 ^ 64 by omega), Nat.or_comm, ← hor, htag,
    Nat.shiftLeft_eq]
  omega

/-- The storage bytes of an encoded header: the tag, then the size's bytes (R101). -/
theorem storageBytes_encodeHeader (ty : BitVec 4) {size : Word} (h : size.toNat < 2 ^ 48) :
    storageBytes (encodeHeader ty size) =
      BitVec.ofNat 8 ((16 * byteCount size.toNat + ty.toNat) + 256 * size.toNat) :: leBytes size.toNat 7 := by
  have hn := byteCount_le_six h
  rw [storageBytes, toNat_encodeHeader ty h, leBytes,
    show (16 * byteCount size.toNat + ty.toNat + 256 * size.toNat) / 256 = size.toNat by omega]

/-- `DecCount` gives back the byte count (R103). -/
theorem headerCount_encodeHeader (ty : BitVec 4) {size : Word} (h : size.toNat < 2 ^ 48) :
    headerCount (encodeHeader ty size) = byteCount size.toNat := by
  have hn := byteCount_le_six h
  rw [headerCount, BitVec.extractLsb'_toNat, toNat_encodeHeader ty h, Nat.shiftRight_eq_div_pow]
  omega

/-- `DecType` gives back the type (R103). -/
theorem headerType_encodeHeader (ty : BitVec 4) {size : Word} (h : size.toNat < 2 ^ 48) :
    headerType (encodeHeader ty size) = ty := by
  apply BitVec.eq_of_toNat_eq
  rw [headerType, BitVec.extractLsb'_toNat, toNat_encodeHeader ty h, Nat.shiftRight_zero]
  omega

/-- Tag bit 7 of an encoded header is 0, since the byte count is below 8 (R83). -/
theorem getLsbD_seven_encodeHeader (ty : BitVec 4) {size : Word} (h : size.toNat < 2 ^ 48) :
    (encodeHeader ty size).getLsbD 7 = false := by
  have hn := byteCount_le_six h
  rw [BitVec.getLsbD, toNat_encodeHeader ty h, Nat.testBit_eq_decide_div_mod_eq, decide_eq_false_iff_not]
  omega

/-- The size's bytes past its byte count are 0x00 (R100). -/
theorem drop_leBytes_byteCount {size : Nat} (h : size < 2 ^ 48) :
    (leBytes size 7).drop (byteCount size) = List.replicate (7 - byteCount size) 0 := by
  have hn := byteCount_le_six h
  have hsplit := leBytes_append size (byteCount size) (7 - byteCount size)
  rw [Nat.add_sub_cancel' (show byteCount size ≤ 7 by omega),
    Nat.div_eq_of_lt ((byteCount_le_iff size _).mp (Nat.le_refl _)), leBytes_zero] at hsplit
  rw [hsplit, List.drop_left' (length_leBytes _ _)]

/-- What HMAKE writes meets R23. -/
theorem headerWellFormed_encodeHeader {ty : BitVec 4} {size : Word} (ht : ty.toNat ≤ 5) (h : size.toNat < 2 ^ 48) :
    headerWellFormed (encodeHeader ty size) = true := by
  have hpad :
      ((storageBytes (encodeHeader ty size)).drop (headerLength (encodeHeader ty size))).all (· == 0) = true := by
    rw [headerLength, headerCount_encodeHeader ty h, storageBytes_encodeHeader ty h, Nat.add_comm 1,
      List.drop_succ_cons, drop_leBytes_byteCount h]
    simp
  simp only [headerWellFormed, hpad, getLsbD_seven_encodeHeader ty h, headerCount_encodeHeader ty h,
    headerType_encodeHeader ty h, byteCount_le_six h, ht, decide_true, Bool.not_false, Bool.and_self]

end Sys2Proof.Machine

/-! ### Architectural state: what each command writes (10_state.md R24, R27, R28, R32) -/

namespace Sys2Proof.Machine

/-- The next states of an instruction as updates of the state, with the entry of the writer tables of R24, R27, R28,
R32 and R57 that allows each update and the facts about the written value that the invariant needs. -/
inductive Writes (i : Instr) (s : State) : State → Prop
  /-- a recorded fault (R222) -/
  | fault (c : Cause) (info : Word) : Writes i s (s.raise c info)
  | header (h : Word) (hw : writesHeader i = true) (hh : headerWellFormed h = true) : Writes i s (s.setHdr h)
  | result (v : Word) (hr : writesRes i = true) : Writes i s (s.setRes v)
  | flag (b : Bool) (ho : writesOk i = true) : Writes i s (s.setOk b)
  | resultFlag (v : Word) (b : Bool) (hr : writesRes i = true) (ho : writesOk i = true) :
      Writes i s ((s.setRes v).setOk b)
  | register (r : CReg) (v : ContentId) (hd : destination i = some r) : Writes i s (s.setCid r v)
  /-- CFROMB and CFROMH that produce a value (R28) -/
  | registerFlag (r : CReg) (v : ContentId) (hd : destination i = some r) (ho : writesOk i = true) :
      Writes i s ((s.setCid r v).setOk true)
  /-- BINIT (R137) -/
  | restart (hb : writesBuilder i = true) (hm : writesMessage i = true) : Writes i s (s.setBuilder [] .fresh)
  /-- an append (R131) -/
  | append (bs : List Byte) (hb : writesBuilder i = true) (hm : writesMessage i = true)
      (hl : s.m.length + bs.length ≤ Config.maxMsg) : Writes i s (s.setBuilder (s.m ++ bs) .accum)
  /-- BBUILD (R141) -/
  | finish (r : CReg) (v : ContentId) (hd : destination i = some r) (hb : writesBuilder i = true) :
      Writes i s ((s.setCid r v).setBuilder s.m .final)
  /-- a store to the host memory (R53, R57) -/
  | bytes (addr : Word) (bs : List Byte) (hs : writeSpan i = some (addr, bs.length))
      (hl : legalSpan addr bs.length) : Writes i s (s.store addr bs)

section
variable {s t : State} {i : Instr}

/-- Every command's own effect is one update that the tables allow it. -/
theorem writes_of_effect (h : Effect s i t) : Writes i s t := by
  cases i with
  | hmake ty size =>
    obtain ⟨ht, hs, rfl⟩ := h
    exact .header _ rfl (headerWellFormed_encodeHeader ht hs)
  | hbytes => obtain ⟨-, rfl⟩ := h; exact .result _ rfl
  | hdata => obtain ⟨-, rfl⟩ := h; exact .result _ rfl
  | htype => obtain ⟨-, rfl⟩ := h; exact .result _ rfl
  | hsize => obtain ⟨-, rfl⟩ := h; exact .result _ rfl
  | hpres => obtain ⟨-, rfl⟩ := h; exact .flag _ rfl
  | binit => obtain rfl := h; exact .restart rfl rfl
  | baph => obtain ⟨hm, rfl⟩ := h; exact .append _ rfl rfl hm
  | bapb addr len => obtain ⟨hm, -, -, rfl⟩ := h; exact .append _ rfl rfl (by rwa [length_memRead])
  | bapt addr len => obtain ⟨hm, -, -, rfl⟩ := h; exact .append _ rfl rfl (by rwa [length_memRead])
  | bbuild ca => obtain rfl := h; exact .finish ca _ rfl rfl
  | cmake ty ca addr len => obtain ⟨-, -, rfl⟩ := h; exact .register ca _ rfl
  | cfromb ca addr len =>
    obtain ⟨-, rfl⟩ | ⟨-, -, -, rfl⟩ := h
    · exact .flag _ rfl
    · exact .registerFlag ca _ rfl rfl
  | cfromh ca addr len =>
    obtain ⟨-, rfl⟩ | ⟨-, -, -, ⟨-, rfl⟩ | ⟨-, rfl⟩⟩ := h
    · exact .flag _ rfl
    · exact .registerFlag ca _ rfl rfl
    · exact .flag _ rfl
  | cisb len => obtain rfl := h; exact .flag _ rfl
  | cish addr len => obtain ⟨-, rfl⟩ | ⟨-, -, -, rfl⟩ := h <;> exact .flag _ rfl
  | ctoh ca addr =>
    obtain ⟨hl, -, rfl⟩ := h
    have hlen : (bytesToHex (cidGet s.cid ca).toList).length = 64 := by simp
    exact .bytes addr _ (by rw [hlen]; rfl) (by rwa [hlen])
  | ctob ca addr =>
    obtain ⟨hl, -, rfl⟩ := h
    have hlen : (cidGet s.cid ca).toList.length = 32 := length_toList_id _
    exact .bytes addr _ (by rw [hlen]; rfl) (by rwa [hlen])
  | ccmp ca cb => obtain rfl := h; exact .result _ rfl
  | ceq ca cb => obtain rfl := h; exact .flag _ rfl
  | clt ca cb => obtain rfl := h; exact .flag _ rfl
  | cbool ca => obtain rfl := h; exact .flag _ rfl
  | chash ca => obtain rfl := h; exact .result _ rfl
  | czero ca => obtain rfl := h; exact .register ca _ rfl
  | cmax ca => obtain rfl := h; exact .register ca _ rfl
  | xishex c => obtain rfl := h; exact .flag _ rfl
  | xh2b c => obtain rfl := h; exact .resultFlag _ _ rfl rfl
  | xb2h src len dst =>
    obtain ⟨-, hl, -, -, rfl⟩ := h
    have hlen : (bytesToHex (memRead s.mem src.toNat len.toNat)).length = 2 * len.toNat := by simp
    exact .bytes dst _ (by rw [hlen]; rfl) (by rwa [hlen])

/-- Every next state of an instruction is an update that the tables allow it. -/
theorem exec_writes (h : exec i s = .next t) : Writes i s t := by
  obtain ⟨c, info, rfl⟩ | he := exec_next h
  · exact .fault c info
  · exact writes_of_effect he

/-! The frame of one update, element by element -/

theorem Writes.hdr_eq (h : Writes i s t) (hi : writesHeader i = false) : t.hdr = s.hdr ∧ t.hdrV = s.hdrV := by
  cases h with
  | header _ hw => rw [hi] at hw; cases hw
  | _ => exact ⟨rfl, rfl⟩

theorem Writes.cid_eq (h : Writes i s t) {r : CReg} (hi : destination i ≠ some r) :
    cidGet t.cid r = cidGet s.cid r := by
  have other {q : CReg} (v : ContentId) (hd : destination i = some q) :
      cidGet (cidSet s.cid q v) r = cidGet s.cid r :=
    cidGet_cidSet_other s.cid v fun hrq => hi (hrq ▸ hd)
  cases h with
  | register _ v hd => exact other v hd
  | registerFlag _ v hd => exact other v hd
  | finish _ v hd => exact other v hd
  | _ => rfl

theorem Writes.bst_eq (h : Writes i s t) (hi : writesBuilder i = false) : t.bst = s.bst := by
  cases h with
  | restart hb => rw [hi] at hb; cases hb
  | append _ hb => rw [hi] at hb; cases hb
  | finish _ _ _ hb => rw [hi] at hb; cases hb
  | _ => rfl

theorem Writes.m_eq (h : Writes i s t) (hi : writesMessage i = false) : t.m = s.m := by
  cases h with
  | restart _ hm => rw [hi] at hm; cases hm
  | append _ _ hm => rw [hi] at hm; cases hm
  | _ => rfl

theorem Writes.res_eq (h : Writes i s t) (hi : writesRes i = false) : t.res = s.res := by
  cases h with
  | result _ hr => rw [hi] at hr; cases hr
  | resultFlag _ _ hr => rw [hi] at hr; cases hr
  | _ => rfl

theorem Writes.ok_eq (h : Writes i s t) (hi : writesOk i = false) : t.ok = s.ok := by
  cases h with
  | flag _ ho => rw [hi] at ho; cases ho
  | resultFlag _ _ _ ho => rw [hi] at ho; cases ho
  | registerFlag _ _ _ ho => rw [hi] at ho; cases ho
  | _ => rfl

/-- Without a fault after it, an update leaves the fault information alone (R31). -/
theorem Writes.cause_eq (h : Writes i s t) (ht : t.fv = false) : t.cause = s.cause ∧ t.finfo = s.finfo := by
  cases h with
  | fault c info => cases ht
  | _ => exact ⟨rfl, rfl⟩

/-- No command clears a fault (R31). -/
theorem Writes.fv_kept (h : Writes i s t) (hs : s.fv = true) : t.fv = true := by
  cases h with
  | fault c info => rfl
  | _ => exact hs

theorem Writes.inputs_eq (h : Writes i s t) : t.platform = s.platform ∧ t.rst = s.rst ∧ t.host = s.host := by
  cases h <;> exact ⟨rfl, rfl, rfl⟩

end

/-- Settles O48: a next state is an update the writer tables allow (`exec_writes`), and each update has its frame. -/
theorem commandsWriteOnlyTheirRegisters : Obligations.CommandsWriteOnlyTheirRegisters := by
  intro i s t h
  have hw : Writes i s t := exec_writes h
  exact ⟨hw.hdr_eq, fun _ => hw.cid_eq, hw.bst_eq, hw.m_eq, hw.res_eq, hw.ok_eq, hw.cause_eq, hw.fv_kept,
    hw.inputs_eq⟩

end Sys2Proof.Machine

/-! ### Architectural state: the invariant (R23, R25, R26, R31) -/

namespace Sys2Proof.Machine

/-- Settles O2: `State.reset` has no header, no message, no fault and an empty memory (R250). -/
theorem invariantHoldsAtReset : Obligations.InvariantHoldsAtReset where
  header hv := by cases hv
  message := Nat.zero_le _
  fresh _ := rfl
  noFault _ := ⟨rfl, rfl⟩
  fault hf := by cases hf
  memory := memWf_reset

section
variable {s t : State}

theorem causeCode_range (c : Cause) : 1 ≤ (causeCode c).toNat ∧ (causeCode c).toNat ≤ 9 := by
  cases c <;> decide

/-! The invariant under each update of the state -/

theorem State.Inv.raise (h : s.Inv) (c : Cause) (info : Word) : (s.raise c info).Inv where
  __ := h
  noFault hf := by cases hf
  fault _ := causeCode_range c

theorem State.Inv.setRes (h : s.Inv) (v : Word) : (s.setRes v).Inv := { h with }

theorem State.Inv.setOk (h : s.Inv) (b : Bool) : (s.setOk b).Inv := { h with }

theorem State.Inv.setCid (h : s.Inv) (r : CReg) (v : ContentId) : (s.setCid r v).Inv := { h with }

theorem State.Inv.nextSample (h : s.Inv) : s.nextSample.Inv := { h with }

theorem State.Inv.withHost (h : s.Inv) (rest : List HostAction) : (s.withHost rest).Inv := { h with }

theorem State.Inv.setHdr (h : s.Inv) {w : Word} (hw : headerWellFormed w = true) : (s.setHdr w).Inv :=
  { h with header := fun _ => hw }

theorem State.Inv.setBuilder (h : s.Inv) {msg : List Byte} {b : BuilderState} (hl : msg.length ≤ Config.maxMsg)
    (hb : b = .fresh → msg = []) : (s.setBuilder msg b).Inv :=
  { h with message := hl, fresh := hb }

theorem State.Inv.store (h : s.Inv) {addr : Word} {bs : List Byte} (hl : legalSpan addr bs.length) :
    (s.store addr bs).Inv :=
  { h with memory := memWf_memWrite bs h.memory hl }

/-- Reset of any state: the block is as in `State.reset`, and memory keeps its form (R250). -/
theorem State.Inv.blockReset (h : s.Inv) : s.blockReset.Inv :=
  { invariantHoldsAtReset with memory := h.memory }

/-! The invariant under a command and under a step -/

theorem Writes.keeps_inv {i : Instr} (h : Writes i s t) (hs : s.Inv) : t.Inv := by
  cases h with
  | fault c info => exact hs.raise c info
  | header w _ hw => exact hs.setHdr hw
  | result v => exact hs.setRes v
  | flag b => exact hs.setOk b
  | resultFlag v b => exact (hs.setRes v).setOk b
  | register r v => exact hs.setCid r v
  | registerFlag r v => exact (hs.setCid r v).setOk true
  | restart => exact hs.setBuilder (Nat.zero_le _) fun _ => rfl
  | append bs _ _ hl => exact hs.setBuilder (by rwa [List.length_append]) fun hb => by cases hb
  | finish r v => exact (hs.setCid r v).setBuilder hs.message fun hb => by cases hb
  | bytes addr bs _ hl => exact hs.store hl

theorem perform_keeps_inv {c : Command} (h : perform c s = .next t) (hs : s.Inv) : t.Inv := by
  obtain ⟨i, -, he⟩ | ⟨-, rfl⟩ := perform_next h
  · exact (exec_writes he).keeps_inv hs
  · exact hs.raise _ _

/-- One byte always lies below the top of the address space (R51). -/
theorem legalSpan_one (addr : Word) : legalSpan addr 1 := addr.isLt

end

/-- Settles O3: one case for each thing a step can do, a reset, idling, a host action, a halted or a performed
command. -/
theorem stepKeepsInvariant : Obligations.StepKeepsInvariant := by
  intro s t hs h
  obtain ⟨-, rfl⟩ | ⟨-, ⟨-, rfl⟩ | ⟨rest, -, rfl⟩ | ⟨addr, b, rest, -, rfl⟩ | ⟨c, rest, -, ⟨-, rfl⟩ | ⟨-, hp⟩⟩⟩ :=
    step_next h
  · exact hs.nextSample.blockReset
  · exact hs.nextSample
  · exact hs.nextSample.withHost rest
  · exact (hs.nextSample.withHost rest).store (legalSpan_one addr)
  · exact hs.nextSample
  · exact perform_keeps_inv hp (hs.nextSample.withHost rest)

end Sys2Proof.Machine

/-! ### Architectural state: the status port (R30) -/

namespace Sys2Proof.Machine

/-- Bit `k` of `STAT`: of the five fields it shows, the one that stands there. -/
theorem State.getLsbD_stat (s : State) {k : Nat} (hk : k < 32) :
    s.stat.getLsbD k = ((builderCode s.bst).getLsbD k || (decide (k = 2) && s.hdrV) || (decide (k = 3) && s.ok) ||
      (decide (k = 4) && s.fv) || (decide (8 ≤ k) && s.cause.getLsbD (k - 8))) := by
  have hbit (b : Bool) (n : Nat) :
      ((BitVec.ofBool b).setWidth 32 <<< n).getLsbD k = (decide (k = n) && b) := by
    rw [BitVec.getLsbD_shiftLeft, BitVec.getLsbD_setWidth, BitVec.getLsbD_ofBool]
    grind
  have hcause : (s.cause.setWidth 32 <<< 8).getLsbD k = (decide (8 ≤ k) && s.cause.getLsbD (k - 8)) := by
    rw [BitVec.getLsbD_shiftLeft, BitVec.getLsbD_setWidth]
    grind
  simp only [State.stat, BitVec.getLsbD_or, hbit, hcause, BitVec.getLsbD_setWidth, hk, decide_true, Bool.true_and]

/-- Above its two lowest bits `STAT` shows the one-bit fields and `CAUSE` only. -/
theorem State.getLsbD_stat_above (s : State) {k : Nat} (hk : 2 ≤ k) (hk' : k < 32) :
    s.stat.getLsbD k = ((decide (k = 2) && s.hdrV) || (decide (k = 3) && s.ok) || (decide (k = 4) && s.fv) ||
      (decide (8 ≤ k) && s.cause.getLsbD (k - 8))) := by
  rw [s.getLsbD_stat hk', BitVec.getLsbD_of_ge _ _ hk, Bool.false_or]

theorem State.extractLsb'_stat_bst (s : State) : s.stat.extractLsb' 0 2 = builderCode s.bst := by
  ext k hk
  rw [BitVec.getElem_extractLsb', s.getLsbD_stat (by omega)]
  grind

theorem State.getLsbD_stat_hdrV (s : State) : s.stat.getLsbD 2 = s.hdrV := by
  rw [s.getLsbD_stat_above (by omega) (by omega)]
  simp

theorem State.getLsbD_stat_ok (s : State) : s.stat.getLsbD 3 = s.ok := by
  rw [s.getLsbD_stat_above (by omega) (by omega)]
  simp

theorem State.getLsbD_stat_fv (s : State) : s.stat.getLsbD 4 = s.fv := by
  rw [s.getLsbD_stat_above (by omega) (by omega)]
  simp

theorem State.extractLsb'_stat_cause (s : State) : s.stat.extractLsb' 8 8 = s.cause := by
  ext k hk
  rw [BitVec.getElem_extractLsb', s.getLsbD_stat_above (by omega) (by omega), Nat.add_sub_cancel_left]
  grind

/-- A run of bits that meets no field reads 0. -/
theorem State.extractLsb'_stat_reserved (s : State) {n w : Nat} (h : 5 ≤ n ∧ n + w ≤ 8 ∨ 16 ≤ n ∧ n + w ≤ 32) :
    s.stat.extractLsb' n w = 0 := by
  ext k hk
  rw [BitVec.getElem_extractLsb', s.getLsbD_stat_above (by omega) (by omega)]
  grind

/-- `STAT` is a view of the five fields it shows. -/
theorem State.stat_congr {s t : State} (hb : t.bst = s.bst) (hv : t.hdrV = s.hdrV) (ho : t.ok = s.ok)
    (hf : t.fv = s.fv) (hc : t.cause = s.cause) : t.stat = s.stat := by
  rw [State.stat, hb, hv, ho, hf, hc, State.stat]

/-- Settles O47: each field read off `State.getLsbD_stat`, and `STAT` a view of them (`State.stat_congr`). -/
theorem statShowsTheStateDirectly : Obligations.StatShowsTheStateDirectly := by
  refine ⟨fun s => ⟨?_, s.getLsbD_stat_hdrV, s.getLsbD_stat_ok, s.getLsbD_stat_fv,
    s.extractLsb'_stat_reserved (by omega), s.extractLsb'_stat_cause, s.extractLsb'_stat_reserved (by omega)⟩,
    fun _ _ => State.stat_congr⟩
  rw [s.extractLsb'_stat_bst]
  cases s.bst <;> rfl

end Sys2Proof.Machine

/-! ### Memory: an encoded command decodes to its instruction (30_encoding.md R71, R80) -/

namespace Sys2Proof

/-- The row of each opcode reads back the operands its encoder put into the word and the ports (R80). -/
theorem decodeRow_encode (i : Instr) : decodeRow (encode i) = .ok i := by
  cases i <;> simp [encode, decodeRow, Command.inFormat, Command.unusedZero, Command.char]

/-- An encoded word has CW[31:16] = 0 (R72). -/
theorem reserved_encode (i : Instr) : (encode i).reserved = 0 := by
  cases i <;> exact reserved_commandWord ..

theorem decode_encode (i : Instr) : decode (encode i) = .ok i :=
  (if_pos (reserved_encode i)).trans (decodeRow_encode i)

end Sys2Proof

/-! ### Memory: read after write, and what a command stores (20_memory.md R51 to R57) -/

namespace Sys2Proof.Machine

/-- Settles O52: inside the span, outside it, and the whole span, by the laws of `memWrite`. -/
theorem memoryReadsBackWhatWasWritten : Obligations.MemoryReadsBackWhatWasWritten :=
  fun m addr s => ⟨memGet_memWrite_inside m addr s, fun _ => memGet_memWrite_outside m addr s,
    memRead_memWrite_same m addr s⟩

section
variable {s t : State} {i : Instr}

/-- Of the updates a command can make only the store touches memory, and it stays inside the write span (R57). -/
theorem Writes.memGet_eq (h : Writes i s t) {a : Nat}
    (ha : ∀ base n, writeSpan i = some (base, n) → a < base.toNat ∨ base.toNat + n ≤ a) :
    memGet t.mem a = memGet s.mem a := by
  cases h with
  | bytes addr bs hs => exact memGet_memWrite_outside s.mem addr.toNat bs (ha addr bs.length hs)
  | _ => rfl

/-- Every byte of a span is accessed legally: the span stays below 2^64 (R51) and its bytes are admitted (R54). -/
def Accessible (p : Platform) (k : Access) (span : Option (Word × Nat)) : Prop :=
  ∀ base n, span = some (base, n) → legalSpan base n ∧ admitsSpan p k base n

theorem accessible_none (p : Platform) (k : Access) : Accessible p k none := nofun

theorem accessible_some {p : Platform} {k : Access} {addr : Word} {n : Nat} (hl : legalSpan addr n)
    (ha : admitsSpan p k addr n) : Accessible p k (some (addr, n)) := by
  rintro base n ⟨⟩
  exact ⟨hl, ha⟩

/-- A span that is accessed under a condition only (R166, R167, R169). -/
theorem accessible_ite {p : Platform} {k : Access} {q : Prop} [Decidable q] {span : Option (Word × Nat)}
    (h : q → Accessible p k span) : Accessible p k (if q then span else none) := by
  split
  · next hq => exact h hq
  · exact accessible_none p k

/-- The conditions of a command's own effect cover the span it reads (R57). -/
theorem Effect.accessible_readSpan (h : Effect s i t) : Accessible s.platform .read (readSpan i) := by
  cases i with
  | bapb addr len => obtain ⟨-, hl, ha, -⟩ := h; exact accessible_some hl ha
  | bapt addr len => obtain ⟨-, hl, ha, -⟩ := h; exact accessible_some hl ha
  | cmake ty ca addr len => obtain ⟨hl, ha, -⟩ := h; exact accessible_some hl ha
  | cfromb ca addr len =>
    obtain ⟨hn, -⟩ | ⟨-, hl, ha, -⟩ := h
    · exact accessible_ite (absurd · hn)
    · exact accessible_ite fun _ => accessible_some hl ha
  | cfromh ca addr len =>
    obtain ⟨hn, -⟩ | ⟨-, hl, ha, -⟩ := h
    · exact accessible_ite (absurd · hn)
    · exact accessible_ite fun _ => accessible_some hl ha
  | cish addr len =>
    obtain ⟨hn, -⟩ | ⟨-, hl, ha, -⟩ := h
    · exact accessible_ite (absurd · hn)
    · exact accessible_ite fun _ => accessible_some hl ha
  | xb2h src len dst => obtain ⟨hl, -, ha, -, -⟩ := h; exact accessible_some hl ha
  | _ => exact accessible_none _ _

/-- The conditions of a command's own effect cover the span it writes (R57). -/
theorem Effect.accessible_writeSpan (h : Effect s i t) : Accessible s.platform .write (writeSpan i) := by
  cases i with
  | ctoh ca addr => obtain ⟨hl, ha, -⟩ := h; exact accessible_some hl ha
  | ctob ca addr => obtain ⟨hl, ha, -⟩ := h; exact accessible_some hl ha
  | xb2h src len dst => obtain ⟨-, hl, -, ha, -⟩ := h; exact accessible_some hl ha
  | _ => exact accessible_none _ _

end

/-- Settles O49: a next state is an update the tables allow, and only a store inside the write span touches memory. -/
theorem commandsStoreOnlyInsideTheirWriteSpan : Obligations.CommandsStoreOnlyInsideTheirWriteSpan :=
  fun _ _ _ h _ ha => (exec_writes h).memGet_eq ha

/-- Settles O50: the command took no fault, so it had its own effect, whose conditions cover both spans. -/
theorem completedCommandsAccessAdmittedBytesOnly : Obligations.CompletedCommandsAccessAdmittedBytesOnly := by
  intro i s t _ h ht
  obtain ⟨c, info, rfl⟩ | he := exec_next h
  · cases ht
  · exact ⟨he.accessible_readSpan, he.accessible_writeSpan⟩

end Sys2Proof.Machine

/-! ### Memory: what a command's outcome depends on (20_memory.md R52, R57) -/

namespace Sys2Proof.Machine

/-- `s` with another host memory and other pending host actions. -/
def State.withEnv (s : State) (mem : List Host.Cell) (host : List HostAction) : State :=
  { s with mem := mem, host := host }

@[simp] theorem State.withEnv_mem (s : State) (mem : List Host.Cell) (host : List HostAction) :
    (s.withEnv mem host).mem = mem := rfl

@[simp] theorem State.withEnv_hdr (s : State) (mem : List Host.Cell) (host : List HostAction) :
    (s.withEnv mem host).hdr = s.hdr := rfl

@[simp] theorem State.withEnv_platform (s : State) (mem : List Host.Cell) (host : List HostAction) :
    (s.withEnv mem host).platform = s.platform := rfl

/-- Two memories read alike on a span, if there is one. -/
def ReadsAlike (span : Option (Word × Nat)) (mem mem' : List Host.Cell) : Prop :=
  ∀ base n, span = some (base, n) → ∀ a, base.toNat ≤ a → a < base.toNat + n → memGet mem a = memGet mem' a

/-- Two memories that read alike on a span give the same byte string there (R52). -/
theorem ReadsAlike.memRead_eq {addr : Word} {n : Nat} {mem mem' : List Host.Cell}
    (h : ReadsAlike (some (addr, n)) mem mem') : memRead mem addr.toNat n = memRead mem' addr.toNat n :=
  memRead_congr (h addr n rfl)

theorem readsAlike_refl (span : Option (Word × Nat)) (mem : List Host.Cell) : ReadsAlike span mem mem :=
  fun _ _ _ _ _ _ => rfl

/-- Storing one byte string makes two memories read alike on its span (R53). -/
theorem readsAlike_memWrite (addr : Word) (bs : List Byte) (mem mem' : List Host.Cell) :
    ReadsAlike (some (addr, bs.length)) (memWrite mem addr.toNat bs) (memWrite mem' addr.toNat bs) := by
  rintro base n ⟨⟩ a hl hu
  obtain ⟨k, rfl⟩ := Nat.exists_eq_add_of_le hl
  rw [memGet_memWrite_inside _ _ _ k (by omega), memGet_memWrite_inside _ _ _ k (by omega)]

/-- The answers of one command in `s` and in `s.withEnv mem host` are the same update of the two states. `span` is
what the command may write (R57). -/
inductive Alike (span : Option (Word × Nat)) (s : State) (mem : List Host.Cell) (host : List HostAction) :
    Result → Result → Prop
  /-- a new value of the registers, with nothing stored -/
  | keep (t : State) (hs : span = none) (ht : t.mem = s.mem) :
      Alike span s mem host (.next t) (.next (t.withEnv mem host))
  /-- the same bytes stored at the same place -/
  | store (addr : Word) (bs : List Byte) (hs : span = some (addr, bs.length)) :
      Alike span s mem host (.next (s.store addr bs)) (.next ((s.withEnv mem host).store addr bs))
  /-- the same fault recorded (R222) -/
  | raise (c : Cause) (info : Word) :
      Alike span s mem host (.next (s.raise c info)) (.next ((s.withEnv mem host).raise c info))
  /-- the same stop of the model (R110) -/
  | stop (f : Fault) : Alike span s mem host (.fault f) (.fault f)

section
variable {span : Option (Word × Nat)} {s : State} {mem : List Host.Cell} {host : List HostAction} {k k' : Result}

/-! Each guard decides alike in both states: it looks at no byte of memory and at no action of the host -/

theorem Alike.ite_takeFault {p : Prop} [Decidable p] {c : Cause} {info : Word} (hk : Alike span s mem host k k') :
    Alike span s mem host (if p then takeFault c info s else k)
      (if p then takeFault c info (s.withEnv mem host) else k') := by
  split
  · exact .raise c info
  · exact hk

theorem Alike.guardType {ty : BitVec 4} (hk : Alike span s mem host k k') :
    Alike span s mem host (guardType ty s k) (guardType ty (s.withEnv mem host) k') :=
  hk.ite_takeFault

theorem Alike.guardSize {size : Word} (hk : Alike span s mem host k k') :
    Alike span s mem host (guardSize size s k) (guardSize size (s.withEnv mem host) k') :=
  hk.ite_takeFault

theorem Alike.guardHeader (hk : Alike span s mem host k k') :
    Alike span s mem host (guardHeader s k) (guardHeader (s.withEnv mem host) k') := by
  refine Alike.ite_takeFault (p := s.hdrV = false) ?_
  rw [State.withEnv_hdr]
  split
  · exact .stop .malformedHeader
  · exact hk

theorem Alike.guardBuilder {op : Byte} (hk : Alike span s mem host k k') :
    Alike span s mem host (guardBuilder op s k) (guardBuilder op (s.withEnv mem host) k') :=
  hk.ite_takeFault

theorem Alike.guardMessage {n : Nat} (hk : Alike span s mem host k k') :
    Alike span s mem host (guardMessage n s k) (guardMessage n (s.withEnv mem host) k') :=
  hk.ite_takeFault

theorem Alike.guardRange {addr : Word} {n : Nat} (hk : Alike span s mem host k k') :
    Alike span s mem host (guardRange addr n s k) (guardRange addr n (s.withEnv mem host) k') :=
  hk.ite_takeFault

theorem Alike.guardOverlap {src dst : Word} {n : Nat} (hk : Alike span s mem host k k') :
    Alike span s mem host (guardOverlap src dst n s k) (guardOverlap src dst n (s.withEnv mem host) k') :=
  hk.ite_takeFault

theorem Alike.guardAccess {kind : Access} {addr : Word} {n : Nat} (hk : Alike span s mem host k k') :
    Alike span s mem host (guardAccess kind addr n s k) (guardAccess kind addr n (s.withEnv mem host) k') := by
  unfold Machine.guardAccess
  rw [State.withEnv_platform]
  cases firstDenied s.platform kind addr.toNat n with
  | none => exact hk
  | some a => exact .raise .memAccess _

theorem Alike.guardSpan {kind : Access} {addr : Word} {n : Nat} (hk : Alike span s mem host k k') :
    Alike span s mem host (guardSpan kind addr n s k) (guardSpan kind addr n (s.withEnv mem host) k') :=
  hk.guardAccess.guardRange

/-! The append procedure and the hex parse, on the same bytes -/

theorem alike_appendBytes (op : Byte) (bs : List Byte) :
    Alike none s mem host (appendBytes op bs s) (appendBytes op bs (s.withEnv mem host)) :=
  .guardBuilder (.guardMessage (.keep (s.setBuilder (s.m ++ bs) .accum) rfl rfl))

theorem alike_appendSpan {op : Byte} {addr len : Word} (h : ReadsAlike (some (addr, len.toNat)) mem s.mem) :
    Alike none s mem host (appendSpan op addr len s) (appendSpan op addr len (s.withEnv mem host)) := by
  refine .guardBuilder (.guardRange (.guardMessage (.guardAccess ?_)))
  rw [State.withEnv_mem, h.memRead_eq]
  exact alike_appendBytes op _

theorem alike_parseHexId (ca : CReg) (text : List Byte) :
    Alike none s mem host (parseHexId ca text s) (parseHexId ca text (s.withEnv mem host)) := by
  unfold parseHexId
  split
  · exact .keep ((s.setCid ca (toContentId (hexDecode text))).setOk true) rfl rfl
  · exact .keep (s.setOk false) rfl rfl

/-- The commands on a text or buffer of one length: they read its bytes only at that length (R166, R167, R169). -/
theorem Alike.iteLength {addr len : Word} {n : Nat}
    (h : ReadsAlike (if len.toNat = n then some (addr, n) else none) mem s.mem)
    (hk : memRead mem addr.toNat n = memRead s.mem addr.toNat n → Alike none s mem host k k') :
    Alike none s mem host (if len.toNat ≠ n then .next (s.setOk false) else Machine.guardSpan .read addr n s k)
      (if len.toNat ≠ n then .next ((s.withEnv mem host).setOk false)
        else Machine.guardSpan .read addr n (s.withEnv mem host) k') := by
  by_cases hn : len.toNat = n
  · rw [if_pos hn] at h
    rw [if_neg (not_not.mpr hn), if_neg (not_not.mpr hn)]
    exact (hk h.memRead_eq).guardSpan
  · rw [if_pos hn, if_pos hn]
    exact .keep (s.setOk false) rfl rfl

/-- A command does the same in two states that differ in the host's actions and in bytes outside its read span. -/
theorem exec_alike {i : Instr} (h : ReadsAlike (readSpan i) mem s.mem) :
    Alike (writeSpan i) s mem host (exec i s) (exec i (s.withEnv mem host)) := by
  cases i with
  | hmake ty size => exact .guardType (.guardSize (.keep _ rfl rfl))
  | hbytes => exact .guardHeader (.keep _ rfl rfl)
  | hdata => exact .guardHeader (.keep _ rfl rfl)
  | htype => exact .guardHeader (.keep _ rfl rfl)
  | hsize => exact .guardHeader (.keep _ rfl rfl)
  | hpres => exact .guardHeader (.keep _ rfl rfl)
  | baph => exact .guardHeader (alike_appendBytes 0x11 (headerBytes s.hdr))
  | bapb addr len => exact alike_appendSpan h
  | bapt addr len => exact alike_appendSpan h
  | bbuild ca => exact .guardBuilder (.keep _ rfl rfl)
  | cmake ty ca addr len =>
    refine .guardType (.guardRange (.guardSize (.guardAccess ?_)))
    rw [State.withEnv_mem, h.memRead_eq]
    exact .keep _ rfl rfl
  | cfromb ca addr len =>
    refine .iteLength h fun hr => ?_
    rw [State.withEnv_mem, hr]
    exact .keep _ rfl rfl
  | cfromh ca addr len =>
    refine .iteLength h fun hr => ?_
    rw [State.withEnv_mem, hr]
    exact alike_parseHexId ca _
  | cish addr len =>
    refine .iteLength h fun hr => ?_
    rw [State.withEnv_mem, hr]
    exact .keep _ rfl rfl
  | ctoh ca addr => exact .guardSpan (.store addr _ (by simp [writeSpan]))
  | ctob ca addr => exact .guardSpan (.store addr _ (by simp [writeSpan]))
  | xb2h src len dst =>
    refine .guardRange (.guardRange (.guardOverlap (.guardAccess (.guardAccess ?_))))
    rw [State.withEnv_mem, h.memRead_eq]
    exact .store dst _ (by simp [writeSpan])
  | _ => exact .keep _ rfl rfl

/-- What a command answers in another environment: the same registers, the environment's host actions, and a memory
that has the same bytes in the write span and is the same memory if it was. -/
theorem exec_withEnv {i : Instr} {t : State} (h : exec i s = .next t) (hm : ReadsAlike (readSpan i) mem s.mem) :
    ∃ mem', exec i (s.withEnv mem host) = .next (t.withEnv mem' host) ∧ (mem = s.mem → mem' = t.mem) ∧
      (t.fv = false → ReadsAlike (writeSpan i) mem' t.mem) := by
  have ha := exec_alike (host := host) hm
  rw [h] at ha
  generalize exec i (s.withEnv mem host) = r at ha ⊢
  cases ha with
  | keep _ hs ht => exact ⟨mem, rfl, fun he => he.trans ht.symm, fun _ base n hb => by rw [hs] at hb; cases hb⟩
  | store addr bs hs =>
    exact ⟨memWrite mem addr.toNat bs, rfl, fun he => by rw [he, State.store_mem],
      fun _ => hs ▸ readsAlike_memWrite addr bs mem s.mem⟩
  | raise c info => exact ⟨mem, rfl, id, fun hf => by cases hf⟩

end

/-- Settles O51: the other memory as the environment, the host's actions as they are (`exec_withEnv`). -/
theorem commandsDependOnlyOnTheirReadSpan : Obligations.CommandsDependOnlyOnTheirReadSpan := by
  intro i s t mem hm h
  obtain ⟨mem', he, -, hw⟩ := exec_withEnv (host := s.host) h hm
  obtain ⟨-, -, hhost⟩ := (exec_writes h).inputs_eq
  refine ⟨t.withEnv mem' s.host, he, ?_, fun _ => hw⟩
  rw [← hhost]
  rfl

end Sys2Proof.Machine

/-! ### Memory: a list of presented commands (20_memory.md R63, 70_reset_and_hazards.md R260) -/

namespace Sys2Proof.Machine

section
variable {s t : State} {i : Instr} {is : List Instr}

theorem State.withHost_self {host : List HostAction} (h : s.host = host) : s.withHost host = s := by
  subst h
  rfl

/-- No command looks at the host's later actions, and it leaves them as they are. -/
theorem exec_withHost (h : exec i s = .next t) (host : List HostAction) :
    exec i (s.withHost host) = .next (t.withHost host) := by
  obtain ⟨mem', he, hmem, -⟩ := exec_withEnv (host := host) h (readsAlike_refl _ s.mem)
  rw [hmem rfl] at he
  exact he

/-- A list that leaves no fault starts without one, and its first command completes (R223). -/
theorem performAll_cons_next (h : performAll (i :: is) s = .next t) (ht : t.fv = false) :
    s.fv = false ∧ ∃ u, exec i s = .next u ∧ performAll is u = .next t := by
  unfold performAll at h
  split at h
  · next hs => cases h; rw [hs] at ht; cases ht
  · next hs =>
    refine ⟨Bool.eq_false_iff.mpr hs, ?_⟩
    split at h
    · next u hu => exact ⟨u, hu, h⟩
    · cases h
    · cases h

/-- A released step on an encoded instruction performs it on the host's remaining actions (R70). -/
theorem step_encode {host : List HostAction} (hr : s.rst = []) (hf : s.fv = false)
    (hh : s.host = .command (encode i) :: host) : step s = exec i (s.withHost host) := by
  have hn : s.nextSample = s := by rw [State.nextSample, hr, List.tail_nil, ← hr]
  rw [step_command (by rw [hr]; rfl) hf hh, perform_of_decode_ok (decode_encode i), hn]

theorem run_succ_of_step_next {M : Host.Core} {n : Nat} {x y : M.State} (h : M.step x = .next y) :
    M.run (n + 1) x = M.run n y := by
  rw [Host.Core.run, h]

end

/-- Settles O10: by induction on the list; the first step performs the first command (`step_encode`) with the same
effect whatever the host presents after it (`exec_withHost`). -/
theorem hostCommandSequenceRunsInOrder : Obligations.HostCommandSequenceRunsInOrder := by
  intro is
  induction is with
  | nil =>
    intro s t rest _ hh h _
    cases h
    exact congrArg _ (State.withHost_self hh).symm
  | cons i is ih =>
    intro s t rest hr hh h ht
    obtain ⟨hf, u, hu, hrest⟩ := performAll_cons_next h ht
    obtain ⟨-, hurst, huhost⟩ := (exec_writes hu).inputs_eq
    have hstep : step s = .next (u.withHost (is.map (fun j => HostAction.command (encode j)) ++ rest)) :=
      (step_encode hr hf hh).trans (exec_withHost hu _)
    rw [← State.withHost_self huhost] at hrest
    calc core.run (is.length + 1) s
        = core.run is.length (u.withHost (is.map (fun j => HostAction.command (encode j)) ++ rest)) :=
          run_succ_of_step_next (M := core) hstep
      _ = .next t := ih _ t rest (hurst.trans hr) rfl hrest ht

end Sys2Proof.Machine

/-! ### Encoding: mask and match select a row by the fields of the word (30_encoding.md R71 to R73, R80, R81) -/

namespace Sys2Proof

/-- Settles O12: the fields and ports an encoder fills are those its row reads (`decode_encode`). -/
theorem decodeOfEncodeIsTheInstruction : Obligations.DecodeOfEncodeIsTheInstruction := decode_encode

/-- The five fields of R71 make up the word. -/
theorem cmdWord_eq_iff_fields (w v : CmdWord) :
    w = v ↔ w.extractLsb' 16 16 = v.extractLsb' 16 16 ∧ w.extractLsb' 0 8 = v.extractLsb' 0 8 ∧
      w.extractLsb' 8 4 = v.extractLsb' 8 4 ∧ w.extractLsb' 12 2 = v.extractLsb' 12 2 ∧
      w.extractLsb' 14 2 = v.extractLsb' 14 2 := by
  refine ⟨by rintro rfl; simp, fun ⟨hres, hop, ht, hra, hrb⟩ => BitVec.eq_of_toNat_eq ?_⟩
  simp only [← BitVec.toNat_inj, BitVec.extractLsb'_toNat, Nat.shiftRight_eq_div_pow] at hres hop ht hra hrb
  have hw := w.isLt
  have hv := v.isLt
  omega

/-- The match column of R73 holds OP and no other bit. -/
theorem fields_setWidth_op (op : Byte) :
    (op.setWidth 32).extractLsb' 16 16 = 0 ∧ (op.setWidth 32).extractLsb' 0 8 = op ∧
      (op.setWidth 32).extractLsb' 8 4 = 0 ∧ (op.setWidth 32).extractLsb' 12 2 = 0 ∧
      (op.setWidth 32).extractLsb' 14 2 = 0 := by
  revert op
  decide

/-- R73's mask and match pick out the words with the row's OP and with 0 in every field its format does not use. -/
theorem maskMatch_iff_fields (c : Command) (r : OpcodeRow) :
    c.cw &&& r.format.mask = r.op.setWidth 32 ↔
      c.reserved = 0 ∧ c.op = r.op ∧ c.unusedZero r.format = true := by
  obtain ⟨op, f⟩ := r
  have keep16 (x : BitVec 16) : x &&& 0xFFFF#16 = x := BitVec.and_allOnes
  have keep8 (x : BitVec 8) : x &&& 0xFF#8 = x := BitVec.and_allOnes
  have keep4 (x : BitVec 4) : x &&& 0xF#4 = x := BitVec.and_allOnes
  have keep2 (x : BitVec 2) : x &&& 0x3#2 = x := BitVec.and_allOnes
  obtain ⟨hres, hop, ht, hra, hrb⟩ := fields_setWidth_op op
  rw [cmdWord_eq_iff_fields, hres, hop, ht, hra, hrb]
  cases f <;>
    simp [Format.mask, Command.unusedZero, Command.reserved, Command.op, Command.t, Command.ra, Command.rb,
      BitVec.extractLsb'_and, keep16, keep8, keep4, keep2, and_assoc]

/-- The rows of R80 have different OP values. -/
theorem opcodeMap_op_injective : ∀ r ∈ opcodeMap, ∀ q ∈ opcodeMap, r.op = q.op → r = q := by
  decide

/-- No word selects two rows: its OP is the OP of both. -/
theorem row_eq_of_maskMatch {w : CmdWord} {r q : OpcodeRow} (hr : r ∈ opcodeMap) (hq : q ∈ opcodeMap)
    (hwr : w &&& r.format.mask = r.op.setWidth 32) (hwq : w &&& q.format.mask = q.op.setWidth 32) : r = q := by
  obtain ⟨-, hopr, -⟩ := (maskMatch_iff_fields ⟨w, 0, 0, 0⟩ r).mp hwr
  obtain ⟨-, hopq, -⟩ := (maskMatch_iff_fields ⟨w, 0, 0, 0⟩ q).mp hwq
  exact opcodeMap_op_injective r hr q hq (hopr.symm.trans hopq)

section
variable {c : Command} {f : Format} {r : OpcodeRow} {i j : Instr}

theorem inFormat_eq_ok_iff : c.inFormat f i = .ok j ↔ c.unusedZero f = true ∧ i = j := by
  unfold Command.inFormat
  split <;> simp [*]

theorem decode_eq_ok_iff : decode c = .ok i ↔ c.reserved = 0 ∧ decodeRow c = .ok i := by
  unfold decode
  split
  · next h => exact (and_iff_right h).symm
  · next h => exact ⟨nofun, fun ⟨h', _⟩ => absurd h' h⟩

/-- The row OP selects is decoded under the check of the row's own format, and to an instruction whose encoder puts
back the fields of the word. -/
theorem decodeRow_of_mem (hr : r ∈ opcodeMap) (hop : c.op = r.op) :
    ∃ i, decodeRow c = c.inFormat r.format i ∧
      (c.unusedZero r.format = true → (encode i).cw = commandWord c.op c.t c.ra c.rb) := by
  fin_cases hr
  all_goals
    simp only [decodeRow, hop]
    refine ⟨_, rfl, fun hz => ?_⟩
    simp only [Command.unusedZero, Bool.and_eq_true, beq_iff_eq] at hz
    simp [encode, hz]

/-- An OP outside the map has no row (R81). -/
theorem decodeRow_of_not_mem (h : ∀ r ∈ opcodeMap, c.op ≠ r.op) : decodeRow c = .error .unassignedOpcode := by
  have hop : ∀ n ∈ opcodeMap.map (·.op.toNat), c.op.toNat ≠ n := by
    rintro n hn rfl
    obtain ⟨r, hr, he⟩ := List.mem_map.mp hn
    exact h r hr (BitVec.eq_of_toNat_eq he.symm)
  unfold decodeRow
  split
  case h_29 => rfl
  all_goals exact absurd ‹c.op.toNat = _› (hop _ (by decide))

/-- What an accepted row says of its command. -/
theorem exists_row_of_decodeRow_ok (h : decodeRow c = .ok i) :
    ∃ r ∈ opcodeMap, c.op = r.op ∧ c.unusedZero r.format = true ∧
      (encode i).cw = commandWord c.op c.t c.ra c.rb := by
  by_cases hex : ∃ r ∈ opcodeMap, c.op = r.op
  · obtain ⟨r, hr, hop⟩ := hex
    obtain ⟨j, hj, hw⟩ := decodeRow_of_mem hr hop
    obtain ⟨hz, rfl⟩ := inFormat_eq_ok_iff.mp (hj.symm.trans h)
    exact ⟨r, hr, hop, hz, hw hz⟩
  · push Not at hex
    rw [decodeRow_of_not_mem hex] at h
    cases h

theorem decode_ok_iff_maskMatch (c : Command) :
    (∃ i, decode c = .ok i) ↔ ∃ r ∈ opcodeMap, c.cw &&& r.format.mask = r.op.setWidth 32 := by
  simp only [decode_eq_ok_iff, maskMatch_iff_fields]
  constructor
  · rintro ⟨i, hres, hi⟩
    obtain ⟨r, hr, hop, hz, -⟩ := exists_row_of_decodeRow_ok hi
    exact ⟨r, hr, hres, hop, hz⟩
  · rintro ⟨r, hr, hres, hop, hz⟩
    obtain ⟨i, hi, -⟩ := decodeRow_of_mem hr hop
    exact ⟨i, hres, hi.trans (inFormat_eq_ok_iff.mpr ⟨hz, rfl⟩)⟩

theorem cw_encode_of_decode (h : decode c = .ok i) : (encode i).cw = c.cw := by
  obtain ⟨hres, hi⟩ := decode_eq_ok_iff.mp h
  obtain ⟨r, hr, hop, hz, hw⟩ := exists_row_of_decodeRow_ok hi
  exact hw.trans (commandWord_fields c hres)

end

/-- Settles O13: mask and match are a condition on the fields (`maskMatch_iff_fields`), and the decoder checks it and
reads the fields row by row (`decodeRow_of_mem`, `decodeRow_of_not_mem`). -/
theorem decoderAcceptsExactlyTheOpcodeMap : Obligations.DecoderAcceptsExactlyTheOpcodeMap :=
  ⟨decode_ok_iff_maskMatch, fun _ _ => cw_encode_of_decode, fun _ _ _ => row_eq_of_maskMatch⟩

/-- Settles O15: five words of different formats, then one word for each reason to refuse. -/
theorem writtenOutWordsDecode : Obligations.WrittenOutWordsDecode := by
  refine ⟨?_, ?_, ?_, ?_, ?_, ?_, ?_, ?_⟩ <;> decide

end Sys2Proof

/-! ### Encoding: the operand ports a row reads (30_encoding.md R70, R76, R77, R80) -/

namespace Sys2Proof

open Machine

section
variable {c d : Command}

/-- The checks of R72 read the word alone. -/
theorem inFormat_congr (h : c.cw = d.cw) (f : Format) (i : Instr) : c.inFormat f i = d.inFormat f i := by
  obtain ⟨w, _, _, _⟩ := c
  obtain ⟨_, _, _, _⟩ := d
  cases h
  cases f <;> rfl

/-- A character operand is OPA[7:0] (R77). -/
theorem char_eq_extractLsb' (c : Command) : c.char = c.opa.extractLsb' 0 8 :=
  BitVec.setWidth_eq_extractLsb' (by decide)

/-- A row reads the word and the ports its command uses, and of a character operand OPA[7:0] only (R76, R77). -/
theorem decodeRow_congr (h : c.cw = d.cw)
    (ha : c.op.toNat ∈ opaUsers → c.op.toNat ∉ [0x30, 0x31] → c.opa = d.opa)
    (hchar : c.op.toNat ∈ [0x30, 0x31] → c.char = d.char) (hb : c.op.toNat ∈ opbUsers → c.opb = d.opb)
    (hc : c.op.toNat ∈ opcUsers → c.opc = d.opc) : decodeRow c = decodeRow d := by
  have hop : c.op = d.op := by rw [Command.op, h, Command.op]
  have ht : c.t = d.t := by rw [Command.t, h, Command.t]
  have hra : c.ra = d.ra := by rw [Command.ra, h, Command.ra]
  have hrb : c.rb = d.rb := by rw [Command.rb, h, Command.rb]
  by_cases hex : ∃ r ∈ opcodeMap, d.op = r.op
  · obtain ⟨r, hr, hrop⟩ := hex
    rw [hop, hrop] at ha hchar hb hc
    simp only [decodeRow, inFormat_congr h, hop, ht, hra, hrb, hrop]
    clear hop hrop
    fin_cases hr <;> simp (disch := decide) [ha, hb, hc, hchar]
  · push Not at hex
    rw [decodeRow_of_not_mem hex, decodeRow_of_not_mem (hop ▸ hex)]

end

/-- Settles O14: CW[31:16] is part of the word, and every row reads no more than the ports its opcode uses
(`decodeRow_congr`). -/
theorem decodeIgnoresUnusedPorts : Obligations.DecodeIgnoresUnusedPorts := by
  intro c d h ha hb hc
  have hres : c.reserved = d.reserved := by rw [Command.reserved, h, Command.reserved]
  have hrow : decodeRow c = decodeRow d := by
    refine decodeRow_congr h (fun hu hn => ?_) (fun hm => ?_) hb hc
    · exact (ha hu).resolve_right fun ⟨hm, _⟩ => hn hm
    · have hu : c.op.toNat ∈ opaUsers := (show [0x30, 0x31] ⊆ opaUsers by decide) hm
      rw [char_eq_extractLsb', char_eq_extractLsb']
      obtain he | ⟨-, he⟩ := ha hu
      · rw [he]
      · exact he
  rw [decode, hres, hrow, decode]

end Sys2Proof

/-! ### Packed header: the byte count and the size field (40_packed_header.md R100 to R103) -/

namespace Sys2Proof.Machine

theorem byteCount_of_ne_zero {size : Nat} (h : size ≠ 0) : byteCount size = (Nat.log2 size + 1 + 7) / 8 := by
  rw [byteCount, bitLength, if_neg h]

/-- A size has at most `byteCount` bytes (R100). -/
theorem lt_pow_byteCount (size : Nat) : size < 256 ^ byteCount size :=
  (byteCount_le_iff size _).mp (Nat.le_refl _)

/-- A byte count of 7 or more is one that is not at most 6 (R100). -/
theorem seven_le_byteCount_iff (size : Nat) : 7 ≤ byteCount size ↔ 2 ^ 48 ≤ size := by
  have hsix : byteCount size ≤ 6 ↔ size < 2 ^ 48 := byteCount_le_iff size 6
  omega

/-- Settles O16: the bounds are all cases of `byteCount_le_iff`. -/
theorem byteCountIsTheLeastThatHoldsTheSize : Obligations.ByteCountIsTheLeastThatHoldsTheSize := by
  intro size
  refine ⟨fun h => ?_, byteCount_of_ne_zero, lt_pow_byteCount _, fun n => (byteCount_le_iff _ n).mpr, ?_,
    seven_le_byteCount_iff _⟩
  · rw [h]; rfl
  · exact (byteCount_le_iff _ 8).mpr size.isLt

/-- The seven bytes above the tag: the size's own bytes, then zeros (R101). -/
theorem leBytes_seven_eq_append {size : Nat} (h : size < 2 ^ 48) :
    leBytes size 7 = leBytes size (byteCount size) ++ List.replicate (7 - byteCount size) 0x00 := by
  have hn := byteCount_le_six h
  rw [← take_leBytes size (byteCount size) 7 (by omega), ← drop_leBytes_byteCount h, List.take_append_drop]

/-- Settles O17: the value is the tag plus 256 times the size (`toNat_encodeHeader`), so the tag byte stands alone in
byte 0 and the size bytes follow. -/
theorem encodeLaysOutTagAndSizeBytes : Obligations.EncodeLaysOutTagAndSizeBytes := by
  intro ty size _ hs
  have htag (n : Nat) : BitVec.ofNat 8 (n + 256 * size.toNat) = BitVec.ofNat 8 n :=
    BitVec.eq_of_toNat_eq (by simp only [BitVec.toNat_ofNat]; omega)
  refine ⟨byteCount_le_six hs, toNat_encodeHeader ty hs, ?_⟩
  rw [storageBytes_encodeHeader ty hs, htag, leBytes_seven_eq_append hs]

/-- `DecCount` is a 3-bit field (R102). -/
theorem headerCount_le_seven (h : Word) : headerCount h ≤ 7 :=
  Nat.le_of_lt_succ (h.extractLsb' 4 3).isLt

/-- `DecSize` is the number the `DecCount` bytes above the tag make (R102). -/
theorem headerSize_eq (h : Word) : headerSize h = BitVec.ofNat 64 (h.toNat / 256 % 256 ^ headerCount h) := by
  rw [headerSize, storageBytes, leBytes, List.tail_cons, take_leBytes _ _ _ (headerCount_le_seven h), leNat_leBytes]

/-- `DecSize` gives back the size (R103). -/
theorem headerSize_encodeHeader (ty : BitVec 4) {size : Word} (h : size.toNat < 2 ^ 48) :
    headerSize (encodeHeader ty size) = size := by
  have hn := byteCount_le_six h
  have hdiv : (encodeHeader ty size).toNat / 256 = size.toNat := by rw [toNat_encodeHeader ty h]; omega
  rw [headerSize_eq, hdiv, headerCount_encodeHeader ty h, Nat.mod_eq_of_lt (lt_pow_byteCount _),
    BitVec.ofNat_toNat, BitVec.setWidth_eq]

/-- `DecBytes` gives back the encoded length (R103). -/
theorem headerLength_encodeHeader (ty : BitVec 4) {size : Word} (h : size.toNat < 2 ^ 48) :
    headerLength (encodeHeader ty size) = 1 + byteCount size.toNat := by
  rw [headerLength, headerCount_encodeHeader ty h]

/-- Settles O18, field by field. -/
theorem decodingTheHeaderInvertsEncoding : Obligations.DecodingTheHeaderInvertsEncoding := fun ty _ _ hs =>
  ⟨headerType_encodeHeader ty hs, headerSize_encodeHeader ty hs, headerLength_encodeHeader ty hs⟩

end Sys2Proof.Machine

/-! ### Packed header: the header commands (40_packed_header.md R104 to R110) -/

namespace Sys2Proof.Machine

/-- The two bounds of R23 on a well-formed header's fields. -/
theorem header_bounds {h : Word} (hw : headerWellFormed h = true) :
    headerCount h ≤ 6 ∧ (headerType h).toNat ≤ 5 := by
  simp only [headerWellFormed, Bool.and_eq_true, decide_eq_true_eq] at hw
  obtain ⟨⟨⟨-, hcount⟩, htype⟩, -⟩ := hw
  exact ⟨hcount, htype⟩

/-- The size field of a well-formed header is at most 6 bytes long, so it is below 2^48 (R23, R102). -/
theorem headerSize_field_lt {h : Word} (hw : headerWellFormed h = true) :
    h.toNat / 256 % 256 ^ headerCount h < 2 ^ 48 :=
  calc h.toNat / 256 % 256 ^ headerCount h < 256 ^ headerCount h := Nat.mod_lt _ (by positivity)
    _ ≤ 256 ^ 6 := Nat.pow_le_pow_right (by decide) (header_bounds hw).1

theorem headerPresent_eq (h : Word) : headerPresent h = decide (headerType h ≠ 0) := by
  rw [headerPresent, Bool.eq_iff_iff, bne_iff_ne, decide_eq_true_iff]

section
variable {s : State}

/-! HMAKE by the guard that decides it (R104). -/

theorem exec_hmake_reservedType {ty : BitVec 4} (size : Word) (h : 5 < ty.toNat) :
    exec (.hmake ty size) s = .next (faulted s 0x02 (ty.setWidth 64)) :=
  guardType_fault h

theorem exec_hmake_invalidSize {ty : BitVec 4} {size : Word} (ht : ty.toNat ≤ 5) (hs : 2 ^ 48 ≤ size.toNat) :
    exec (.hmake ty size) s = .next (faulted s 0x07 size) :=
  (guardType_pass ht).trans (guardSize_fault hs)

theorem exec_hmake {ty : BitVec 4} {size : Word} (ht : ty.toNat ≤ 5) (hs : size.toNat < 2 ^ 48) :
    exec (.hmake ty size) s = .next (s.setHdr (encodeHeader ty size)) :=
  (guardType_pass ht).trans (guardSize_pass hs)

/-! The readers on a readable header that meets R23 (R105 to R109). -/

theorem exec_hbytes (hv : s.hdrV = true) (hw : headerWellFormed s.hdr = true) :
    exec .hbytes s = .next (s.setRes (BitVec.ofNat 64 (headerLength s.hdr))) :=
  guardHeader_pass hv hw

theorem exec_hdata (hv : s.hdrV = true) (hw : headerWellFormed s.hdr = true) :
    exec .hdata s = .next (s.setRes s.hdr) :=
  guardHeader_pass hv hw

theorem exec_htype (hv : s.hdrV = true) (hw : headerWellFormed s.hdr = true) :
    exec .htype s = .next (s.setRes ((headerType s.hdr).setWidth 64)) :=
  guardHeader_pass hv hw

theorem exec_hsize (hv : s.hdrV = true) (hw : headerWellFormed s.hdr = true) :
    exec .hsize s = .next (s.setRes (headerSize s.hdr)) :=
  guardHeader_pass hv hw

theorem exec_hpres (hv : s.hdrV = true) (hw : headerWellFormed s.hdr = true) :
    exec .hpres s = .next (s.setOk (headerPresent s.hdr)) :=
  guardHeader_pass hv hw

/-- HMAKE completes, so what a reader answers after it is what it answers on the header HMAKE wrote. -/
theorem performAll_hmake_reader {t : State} {ty : BitVec 4} {size : Word} {i : Instr} (hf : s.fv = false)
    (ht : ty.toNat ≤ 5) (hs : size.toNat < 2 ^ 48) (h : exec i (s.setHdr (encodeHeader ty size)) = .next t) :
    performAll [.hmake ty size, i] s = .next t := by
  rw [performAll_cons hf (exec_hmake ht hs), performAll_cons (by simpa using hf) h, performAll_nil]

end

/-- Settles O20: the guard passes, and each field read is bounded by R23 (`header_bounds`). -/
theorem headerReadersAnswerFromHdr : Obligations.HeaderReadersAnswerFromHdr := by
  intro s hv hw
  obtain ⟨hcount, htype⟩ := header_bounds hw
  refine ⟨exec_hbytes hv hw, Nat.add_le_add_left hcount 1, exec_hdata hv hw, exec_htype hv hw, htype, ?_,
    headerSize_field_lt hw, ?_⟩
  · rw [exec_hsize hv hw, headerSize_eq]; rfl
  · rw [exec_hpres hv hw, headerPresent_eq]; rfl

/-- Settles O23: the header HMAKE writes meets R23 (`headerWellFormed_encodeHeader`), so each reader answers from it,
and its fields are those encoded (R103). -/
theorem hmakeThenReadingGivesTypeSizeAndLength : Obligations.HmakeThenReadingGivesTypeSizeAndLength := by
  intro ty size s hf ht hs
  have hw : headerWellFormed (s.setHdr (encodeHeader ty size)).hdr = true := headerWellFormed_encodeHeader ht hs
  have hv := State.setHdr_hdrV s (encodeHeader ty size)
  refine ⟨encodeHeader ty size, performAll_hmake_reader hf ht hs ?_, performAll_hmake_reader hf ht hs ?_,
    performAll_hmake_reader hf ht hs ?_, performAll_hmake_reader hf ht hs ?_⟩
  · rw [exec_htype hv hw, State.setHdr_hdr, headerType_encodeHeader ty hs]; rfl
  · rw [exec_hsize hv hw, State.setHdr_hdr, headerSize_encodeHeader ty hs]; rfl
  · rw [exec_hbytes hv hw, State.setHdr_hdr, headerLength_encodeHeader ty hs]; rfl
  · rw [exec_hpres hv hw, State.setHdr_hdr, headerPresent_eq, headerType_encodeHeader ty hs]; rfl

/-- Settles O19: HMAKE checks the type, then the size. -/
theorem hmakeBuildsTheHeaderOrFaults : Obligations.HmakeBuildsTheHeaderOrFaults := fun _ size _ =>
  ⟨exec_hmake_reservedType size, exec_hmake_invalidSize, exec_hmake⟩

/-- Settles O22: the six readers share one guard on `HDR`. -/
theorem malformedHeaderStopsEveryReader : Obligations.MalformedHeaderStopsEveryReader := fun _ hv hw =>
  ⟨guardHeader_malformed hv hw, guardHeader_malformed hv hw, guardHeader_malformed hv hw,
    guardHeader_malformed hv hw, guardHeader_malformed hv hw, guardHeader_malformed hv hw⟩

end Sys2Proof.Machine

/-! ### Builder: BINIT and the header append (41_builder.md R131, R137, R138) -/

namespace Sys2Proof.Machine

@[simp] theorem length_headerBytes (h : Word) : (headerBytes h).length = headerLength h := by
  have hn := headerCount_le_seven h
  rw [headerBytes, List.length_take, length_storageBytes, headerLength]
  omega

/-- Byte i of the canonical bytes of a header is bits 8i+7 to 8i (R21, R138). -/
theorem getElem_headerBytes (h : Word) (i : Nat) (hi : i < (headerBytes h).length) :
    (headerBytes h)[i] = h.extractLsb' (8 * i) 8 :=
  List.getElem_take.trans (getElem_leBytes_word h 8 i _)

section
variable {s : State}

theorem exec_binit : exec .binit s = .next (s.setBuilder [] .fresh) := rfl

/-! BAPH by the guard that decides it (R131, R138). -/

theorem exec_baph_finalized (hv : s.hdrV = true) (hw : headerWellFormed s.hdr = true) (hb : s.bst = .final) :
    exec .baph s = .next (faulted s 0x04 0x11) :=
  (guardHeader_pass hv hw).trans (guardBuilder_fault hb)

theorem exec_baph_tooLong (hv : s.hdrV = true) (hw : headerWellFormed s.hdr = true) (hb : s.bst ≠ .final)
    (hm : 2 ^ 61 - 1 < s.m.length + headerLength s.hdr) :
    exec .baph s = .next (faulted s 0x08 (BitVec.ofNat 64 s.m.length)) := by
  rw [← length_headerBytes] at hm
  exact (guardHeader_pass hv hw).trans ((guardBuilder_pass hb).trans (guardMessage_fault hm))

theorem exec_baph (hv : s.hdrV = true) (hw : headerWellFormed s.hdr = true) (hb : s.bst ≠ .final)
    (hm : s.m.length + headerLength s.hdr ≤ 2 ^ 61 - 1) :
    exec .baph s = .next (s.setBuilder (s.m ++ headerBytes s.hdr) .accum) := by
  rw [← length_headerBytes] at hm
  exact (guardHeader_pass hv hw).trans (appendBytes_pass hb hm)

end

/-- Settles O24: BINIT has no guard, so it needs no case on the Builder state. -/
theorem binitGivesAFreshBuilder : Obligations.BinitGivesAFreshBuilder := fun _ => exec_binit

/-- Settles O25: the header guard passes, the append procedure checks `BST` and then the length, and the bytes appended
are the canonical ones of `HDR` (`getElem_headerBytes`). -/
theorem baphAppendsTheHeaderBytes : Obligations.BaphAppendsTheHeaderBytes := fun s hv hw =>
  ⟨exec_baph_finalized hv hw, exec_baph_tooLong hv hw, fun hb hm =>
    ⟨headerBytes s.hdr, length_headerBytes s.hdr, getElem_headerBytes s.hdr, exec_baph hv hw hb hm⟩⟩

end Sys2Proof.Machine

/-! ### Builder: the span appends (41_builder.md R133, R139, R140) -/

namespace Sys2Proof.Machine

/-- Two spans whose bytes agree one by one are read as the same string (R52). -/
theorem memRead_eq_memRead {m : List Host.Cell} {a b n : Nat}
    (h : ∀ i, i < n → memGet m (a + i) = memGet m (b + i)) : memRead m a n = memRead m b n := by
  apply List.ext_getElem (by simp)
  intro i hi _
  rw [length_memRead] at hi
  simp [h i hi]

section
variable {s : State} {op : Byte} {addr len : Word}

/-! The faults of a span append, in the order of R139; `appendSpan_pass` is the append that takes none. -/

theorem appendSpan_finalized (hb : s.bst = .final) :
    appendSpan op addr len s = .next (s.raise .builderFinalized (op.setWidth 64)) :=
  guardBuilder_fault hb

theorem appendSpan_illegal (hb : s.bst ≠ .final) (hl : ¬legalSpan addr len.toNat) :
    appendSpan op addr len s = .next (faulted s 0x05 addr) :=
  (guardBuilder_pass hb).trans (guardRange_fault hl)

theorem appendSpan_tooLong (hb : s.bst ≠ .final) (hl : legalSpan addr len.toNat)
    (hm : 2 ^ 61 - 1 < s.m.length + len.toNat) :
    appendSpan op addr len s = .next (faulted s 0x08 (BitVec.ofNat 64 s.m.length)) :=
  (guardBuilder_pass hb).trans ((guardRange_pass hl).trans (guardMessage_fault hm))

theorem appendSpan_denied (hb : s.bst ≠ .final) (hl : legalSpan addr len.toNat)
    (hm : s.m.length + len.toNat ≤ 2 ^ 61 - 1) {a : Nat} (ha : lowestDenied s.platform .read addr len.toNat a) :
    appendSpan op addr len s = .next (faulted s 0x09 (BitVec.ofNat 64 a)) :=
  (guardBuilder_pass hb).trans ((guardRange_pass hl).trans ((guardMessage_pass hm).trans (guardAccess_fault ha)))

theorem exec_bapb (hb : s.bst ≠ .final) (hl : legalSpan addr len.toNat)
    (hm : s.m.length + len.toNat ≤ 2 ^ 61 - 1) (ha : admitsSpan s.platform .read addr len.toNat) :
    exec (.bapb addr len) s = .next (s.setBuilder (s.m ++ memRead s.mem addr.toNat len.toNat) .accum) :=
  appendSpan_pass hb hl hm ha

/-- One span append in a sequence: the Builder keeps accumulating (R139). -/
theorem performAll_bapb_accum {msg : List Byte} (is : List Instr) (hf : s.fv = false) (hl : legalSpan addr len.toNat)
    (hm : msg.length + len.toNat ≤ 2 ^ 61 - 1) (ha : admitsSpan s.platform .read addr len.toNat) :
    performAll (.bapb addr len :: is) (s.setBuilder msg .accum) =
      performAll is (s.setBuilder (msg ++ memRead s.mem addr.toNat len.toNat) .accum) :=
  performAll_cons hf (exec_bapb (s := s.setBuilder msg .accum) nofun hl hm ha)

/-- Two span appends in a row are one append of the two strings (R133). -/
theorem performAll_bapb_bapb {b k c j : Word} (is : List Instr) (hf : s.fv = false) (hb : s.bst ≠ .final)
    (hlb : legalSpan b k.toNat) (hlc : legalSpan c j.toNat) (hab : admitsSpan s.platform .read b k.toNat)
    (hac : admitsSpan s.platform .read c j.toNat) (hm : s.m.length + (k.toNat + j.toNat) ≤ 2 ^ 61 - 1) :
    performAll (.bapb b k :: .bapb c j :: is) s = performAll is
      (s.setBuilder (s.m ++ (memRead s.mem b.toNat k.toNat ++ memRead s.mem c.toNat j.toNat)) .accum) := by
  have hfits : (s.m ++ memRead s.mem b.toNat k.toNat).length + j.toNat ≤ 2 ^ 61 - 1 := by
    rw [List.length_append, length_memRead]
    omega
  rw [performAll_cons hf (exec_bapb hb hlb (by omega) hab), performAll_bapb_accum is hf hlc hfits hac,
    List.append_assoc]

end

/-- Settles O26: both commands are the append of a span and differ in the opcode a finalized Builder reports. -/
theorem spanAppendsAddTheBytesOrFault : Obligations.SpanAppendsAddTheBytesOrFault := by
  intro addr len s
  refine ⟨fun hb => ⟨appendSpan_finalized hb, appendSpan_finalized hb⟩,
    fun hb hl => ⟨appendSpan_illegal hb hl, appendSpan_illegal hb hl⟩,
    fun hb hl hm => ⟨appendSpan_tooLong hb hl hm, appendSpan_tooLong hb hl hm⟩,
    fun hb hl hm a ha => ⟨appendSpan_denied hb hl hm ha, appendSpan_denied hb hl hm ha⟩,
    fun hb hl hm ha => ⟨memRead s.mem addr.toNat len.toNat, length_memRead .., getElem_memRead _ _ _, ?_, ?_⟩⟩
  · exact appendSpan_pass hb hl hm ha
  · exact appendSpan_pass hb hl hm ha

end Sys2Proof.Machine

/-! ### Builder: BBUILD (41_builder.md R133, R141) -/

namespace Sys2Proof.Machine

section
variable {s : State} {ca : CReg}

theorem exec_bbuild_finalized (hb : s.bst = .final) : exec (.bbuild ca) s = .next (faulted s 0x04 0x14) :=
  guardBuilder_fault hb

theorem exec_bbuild (hb : s.bst ≠ .final) :
    exec (.bbuild ca) s = .next ((s.setCid ca (Config.sha256 s.m)).setBuilder s.m .final) :=
  guardBuilder_pass hb

/-- BBUILD at the end of a sequence of appends. -/
theorem performAll_bbuild_accum (msg : List Byte) (hf : s.fv = false) :
    performAll [.bbuild ca] (s.setBuilder msg .accum) =
      .next ((s.setCid ca (Config.sha256 msg)).setBuilder msg .final) :=
  performAll_cons hf (exec_bbuild (s := s.setBuilder msg .accum) nofun)

end

/-- Settles O28: BBUILD checks `BST`, then writes one register and `BST`. -/
theorem bbuildStoresTheDigestOnce : Obligations.BbuildStoresTheDigestOnce := fun ca s =>
  ⟨exec_bbuild_finalized, fun hb => ⟨(s.setCid ca (Config.sha256 s.m)).setBuilder s.m .final, exec_bbuild hb, rfl,
    cidGet_cidSet_same .., fun _ => cidGet_cidSet_other s.cid _⟩⟩

/-- Settles O27: a read of the whole span is a read of its two parts (`memRead_append`), so both ways leave the same
message, and BBUILD then starts from the same state. -/
theorem splitAppendsLeaveTheSameBuilder : Obligations.SplitAppendsLeaveTheSameBuilder := by
  intro a n b k c j ca s hf hb hla hlb hlc haa hab hac hn hm hk hj
  have hbytes : memRead s.mem a.toNat n.toNat =
      memRead s.mem b.toNat k.toNat ++ memRead s.mem c.toNat j.toNat := by
    rw [hn, memRead_append, memRead_eq_memRead hk, memRead_eq_memRead hj]
  have hwhole := exec_bapb hb hla hm haa
  have hparts (is : List Instr) := performAll_bapb_bapb is hf hb hlb hlc hab hac (hn ▸ hm)
  rw [← hbytes] at hparts
  exact ⟨_, _, hwhole, hparts [], (performAll_cons hf hwhole).trans (performAll_bbuild_accum _ hf),
    (hparts [.bbuild ca]).trans (performAll_bbuild_accum _ hf), cidGet_cidSet_same s.cid ca _⟩

end Sys2Proof.Machine

/-! ### Builder: CMAKE (41_builder.md R142, R143) -/

namespace Sys2Proof.Machine

/-- The canonical bytes of an encoded header: the tag, then the size's own bytes (R86, R101). -/
theorem headerBytes_encodeHeader {ty : BitVec 4} {size : Word} (ht : ty.toNat ≤ 5) (hs : size.toNat < 2 ^ 48) :
    headerBytes (encodeHeader ty size) =
      BitVec.ofNat 8 (16 * byteCount size.toNat + ty.toNat) :: leBytes size.toNat (byteCount size.toNat) := by
  obtain ⟨-, -, hbytes⟩ := encodeLaysOutTagAndSizeBytes ty size ht hs
  rw [headerBytes, headerLength_encodeHeader ty hs, hbytes, Nat.add_comm, List.take_succ_cons,
    List.take_left' (length_leBytes _ _)]

/-- An encoded header is at most 7 bytes long (R102). -/
theorem headerLength_encodeHeader_le_seven (ty : BitVec 4) {size : Word} (hs : size.toNat < 2 ^ 48) :
    headerLength (encodeHeader ty size) ≤ 7 := by
  rw [headerLength_encodeHeader ty hs]
  exact Nat.add_le_add_left (byteCount_le_six hs) 1

/-- The packed object is the canonical header bytes BAPH appends, then the payload (R87, R138). -/
theorem objectBytes_eq (ty : BitVec 4) {size : Word} (hs : size.toNat < 2 ^ 48) (payload : List Byte) :
    objectBytes ty size payload = headerBytes (encodeHeader ty size) ++ payload := by
  rw [objectBytes, headerBytes, headerLength_encodeHeader ty hs]

section
variable {s : State} {ty : BitVec 4} {ca : CReg} {addr len : Word}

/-! CMAKE by the guard that decides it, in the order of R142. -/

theorem exec_cmake_reservedType (ht : 5 < ty.toNat) :
    exec (.cmake ty ca addr len) s = .next (faulted s 0x02 (ty.setWidth 64)) :=
  guardType_fault ht

theorem exec_cmake_illegal (ht : ty.toNat ≤ 5) (hl : ¬legalSpan addr len.toNat) :
    exec (.cmake ty ca addr len) s = .next (faulted s 0x05 addr) :=
  (guardType_pass ht).trans (guardRange_fault hl)

theorem exec_cmake_invalidSize (ht : ty.toNat ≤ 5) (hl : legalSpan addr len.toNat) (hs : 2 ^ 48 ≤ len.toNat) :
    exec (.cmake ty ca addr len) s = .next (faulted s 0x07 len) :=
  (guardType_pass ht).trans ((guardRange_pass hl).trans (guardSize_fault hs))

theorem exec_cmake_denied (ht : ty.toNat ≤ 5) (hl : legalSpan addr len.toNat) (hs : len.toNat < 2 ^ 48) {a : Nat}
    (ha : lowestDenied s.platform .read addr len.toNat a) :
    exec (.cmake ty ca addr len) s = .next (faulted s 0x09 (BitVec.ofNat 64 a)) :=
  (guardType_pass ht).trans ((guardRange_pass hl).trans ((guardSize_pass hs).trans (guardAccess_fault ha)))

theorem exec_cmake (ht : ty.toNat ≤ 5) (hl : legalSpan addr len.toNat) (hs : len.toNat < 2 ^ 48)
    (ha : admitsSpan s.platform .read addr len.toNat) :
    exec (.cmake ty ca addr len) s =
      .next (s.setCid ca (Config.sha256 (objectBytes ty len (memRead s.mem addr.toNat len.toNat)))) :=
  (guardType_pass ht).trans ((guardRange_pass hl).trans ((guardSize_pass hs).trans (guardAccess_pass ha)))

/-- HMAKE, BINIT and BAPH start a message that is the header's bytes, whatever the Builder held (R137, R138). -/
theorem performAll_hmake_binit_baph (is : List Instr) (hf : s.fv = false) (ht : ty.toNat ≤ 5)
    (hs : len.toNat < 2 ^ 48) :
    performAll (.hmake ty len :: .binit :: .baph :: is) s =
      performAll is ((s.setHdr (encodeHeader ty len)).setBuilder (headerBytes (encodeHeader ty len)) .accum) := by
  have hlen : ([] : List Byte).length + headerLength (encodeHeader ty len) ≤ 2 ^ 61 - 1 := by
    have hle := headerLength_encodeHeader_le_seven ty hs
    rw [List.length_nil]
    omega
  have hbaph : exec .baph ((s.setHdr (encodeHeader ty len)).setBuilder [] .fresh) =
      .next ((s.setHdr (encodeHeader ty len)).setBuilder (headerBytes (encodeHeader ty len)) .accum) :=
    exec_baph rfl (headerWellFormed_encodeHeader ht hs) nofun hlen
  rw [performAll_cons hf (exec_hmake ht hs), performAll_cons (s := s.setHdr _) hf exec_binit,
    performAll_cons (s := (s.setHdr _).setBuilder [] .fresh) hf hbaph]

/-- The sequence of R143 appends the payload to the header's bytes and finalizes. -/
theorem performAll_builderSequence (hf : s.fv = false) (ht : ty.toNat ≤ 5) (hl : legalSpan addr len.toNat)
    (hs : len.toNat < 2 ^ 48) (ha : admitsSpan s.platform .read addr len.toNat) :
    performAll [.hmake ty len, .binit, .baph, .bapb addr len, .bbuild ca] s =
      .next (((s.setHdr (encodeHeader ty len)).setCid ca
        (Config.sha256 (objectBytes ty len (memRead s.mem addr.toNat len.toNat)))).setBuilder
          (objectBytes ty len (memRead s.mem addr.toNat len.toNat)) .final) := by
  have hfits : (headerBytes (encodeHeader ty len)).length + len.toNat ≤ 2 ^ 61 - 1 := by
    have hle := headerLength_encodeHeader_le_seven ty hs
    rw [length_headerBytes]
    omega
  rw [performAll_hmake_binit_baph _ hf ht hs, performAll_bapb_accum (s := s.setHdr _) _ hf hl hfits ha,
    performAll_bbuild_accum (s := s.setHdr _) _ hf, objectBytes_eq ty hs]
  rfl

end

/-- Settles O29: CMAKE checks the type, the range, the size and the access, and hashes the bytes that
`headerBytes_encodeHeader` writes out. -/
theorem cmakeStoresTheObjectIdOrFaults : Obligations.CmakeStoresTheObjectIdOrFaults := by
  intro ty ca addr len s
  refine ⟨exec_cmake_reservedType, exec_cmake_illegal, exec_cmake_invalidSize,
    fun ht hl hs _ ha => exec_cmake_denied ht hl hs ha, fun ht hl hs ha =>
      ⟨memRead s.mem addr.toNat len.toNat, length_memRead .., getElem_memRead _ _ _, _,
        exec_cmake ht hl hs ha, rfl, ?_, fun _ => cidGet_cidSet_other s.cid _⟩⟩
  rw [State.setCid_cid, cidGet_cidSet_same, objectBytes_eq ty hs, headerBytes_encodeHeader ht hs, List.cons_append]

/-- Settles O30: CMAKE hashes the message the sequence builds (`exec_cmake`, `performAll_builderSequence`). -/
theorem cmakeAgreesWithTheBuilderSequence : Obligations.CmakeAgreesWithTheBuilderSequence :=
  fun _ ca _ _ s hf ht hl hs ha => ⟨_, _, exec_cmake ht hl hs ha, performAll_builderSequence hf ht hl hs ha, rfl,
    rfl, rfl, cidGet_cidSet_same s.cid ca _⟩

end Sys2Proof.Machine

/-! ### ContentId: values, hex text and the checks of a span (42_content_id.md R160 to R163, 20_memory.md R51, R54) -/

namespace Sys2Proof.Machine

/-- Byte k of a value made of 32 bytes is byte k of the string. -/
theorem getElem_toContentId {bs : List Byte} (h : bs.length = 32) (k : Nat) (hk : k < 32) :
    (toContentId bs)[k] = bs[k] :=
  (Vector.getElem_toList _).symm.trans (List.getElem_of_eq (toList_toContentId h) (by simpa using hk))

/-- Byte k of a value made of 32 bytes of memory is the byte at its address (R166). -/
theorem getElem_toContentId_memRead (m : List Host.Cell) (a k : Nat) (hk : k < 32) :
    (toContentId (memRead m a 32))[k] = memGet m (a + k) :=
  (getElem_toContentId (length_memRead m a 32) k hk).trans (getElem_memRead ..)

/-- Byte k of a decoded text is made of its characters 2k and 2k + 1 (R162). -/
theorem getElem?_hexDecode {text : List Byte} {k : Nat} (h : 2 * k + 1 < text.length) :
    (hexDecode text)[k]? = some ((hexVal text[2 * k] <<< 4) ||| hexVal text[2 * k + 1]) := by
  induction k generalizing text with
  | zero =>
    match text, h with
    | _ :: _ :: _, _ => rfl
  | succ k ih =>
    match text, h with
    | _ :: _ :: text, h =>
      simp only [List.length_cons] at h
      exact ih (by omega)

/-- Byte k of a value parsed from 64 characters of memory (R162, R167). -/
theorem getElem_toContentId_hexDecode_memRead (m : List Host.Cell) (a k : Nat) (hk : k < 32) :
    (toContentId (hexDecode (memRead m a 64)))[k] =
      ((hexVal (memGet m (a + 2 * k)) <<< 4) ||| hexVal (memGet m (a + 2 * k + 1))) := by
  have hlen : (hexDecode (memRead m a 64)).length = 32 := by rw [length_hexDecode, length_memRead]
  have hbyte : 2 * k + 1 < (memRead m a 64).length := by rw [length_memRead]; omega
  rw [getElem_toContentId hlen, List.getElem_eq_iff, getElem?_hexDecode hbyte, getElem_memRead, getElem_memRead,
    Nat.add_assoc]

/-- 64 bytes of memory are hex text exactly when each of them is a hex digit (R163). -/
theorem isHexText_memRead_iff (m : List Host.Cell) (a : Nat) :
    isHexText (memRead m a 64) = true ↔ ∀ i, i < 64 → isHexChar (memGet m (a + i)) = true := by
  simp [isHexText, Config.cidHexChars, List.all_eq_true, List.forall_mem_iff_forall_getElem]

/-- Characters 2k and 2k + 1 of the hex text of a string are the two digits of its byte k (R205). -/
theorem getElem?_bytesToHex {bs : List Byte} {k : Nat} (h : k < bs.length) :
    (bytesToHex bs)[2 * k]? = some (hexChar (bs[k].extractLsb' 4 4)) ∧
      (bytesToHex bs)[2 * k + 1]? = some (hexChar (bs[k].extractLsb' 0 4)) := by
  induction bs generalizing k with
  | nil => cases h
  | cons b bs ih =>
    cases k with
    | zero => exact ⟨rfl, rfl⟩
    | succ k => exact ih (Nat.lt_of_succ_lt_succ h)

/-- Reading a byte of a written span, by the byte's place in the string. -/
theorem memGet_memWrite_of_getElem? (m : List Host.Cell) (a : Nat) {bs : List Byte} {i : Nat} {b : Byte}
    (h : bs[i]? = some b) : memGet (memWrite m a bs) (a + i) = b := by
  obtain ⟨hi, rfl⟩ := List.getElem?_eq_some_iff.mp h
  exact memGet_memWrite_inside m a bs i hi

section
variable {s : State} {kind : Access} {addr : Word} {n : Nat} {k : Result}

theorem guardSpan_illegal (hl : ¬legalSpan addr n) : guardSpan kind addr n s k = .next (faulted s 0x05 addr) :=
  guardRange_fault hl

theorem guardSpan_denied (hl : legalSpan addr n) {a : Nat} (ha : lowestDenied s.platform kind addr n a) :
    guardSpan kind addr n s k = .next (faulted s 0x09 (BitVec.ofNat 64 a)) :=
  (guardRange_pass hl).trans (guardAccess_fault ha)

/-- The checks of a span do not look at what comes after them: they pass, or they take one fault. -/
theorem guardSpan_passes_or_faults (kind : Access) (addr : Word) (n : Nat) (s : State) :
    (∀ k, guardSpan kind addr n s k = k) ∨ ∃ c info, ∀ k, guardSpan kind addr n s k = .next (s.raise c info) := by
  by_cases hl : legalSpan addr n
  · cases hd : firstDenied s.platform kind addr.toNat n with
    | none => exact .inl fun _ => guardSpan_pass hl ((firstDenied_eq_none_iff ..).mp hd)
    | some a => exact .inr ⟨.memAccess, _, fun _ => guardSpan_denied hl ((firstDenied_eq_some_iff ..).mp hd)⟩
  · exact .inr ⟨.addrRange, _, fun _ => guardSpan_illegal hl⟩

end

end Sys2Proof.Machine

/-! ### ContentId: values from memory (42_content_id.md R166 to R169) -/

namespace Sys2Proof.Machine

section
variable {s : State} {ca : CReg} {addr len : Word}

/-! Each of CFROMB, CFROMH and CISH answers a wrong length at once, and is a guarded span otherwise. -/

theorem exec_cfromb_wrongLength (hn : len.toNat ≠ 32) : exec (.cfromb ca addr len) s = .next (s.setOk false) :=
  if_pos hn

theorem exec_cfromb_span (hn : len.toNat = 32) :
    exec (.cfromb ca addr len) s =
      guardSpan .read addr 32 s (.next ((s.setCid ca (toContentId (memRead s.mem addr.toNat 32))).setOk true)) :=
  if_neg (not_not.mpr hn)

theorem exec_cfromh_wrongLength (hn : len.toNat ≠ 64) : exec (.cfromh ca addr len) s = .next (s.setOk false) :=
  if_pos hn

theorem exec_cfromh_span (hn : len.toNat = 64) :
    exec (.cfromh ca addr len) s = guardSpan .read addr 64 s (parseHexId ca (memRead s.mem addr.toNat 64) s) :=
  if_neg (not_not.mpr hn)

theorem exec_cish_wrongLength (hn : len.toNat ≠ 64) : exec (.cish addr len) s = .next (s.setOk false) :=
  if_pos hn

theorem exec_cish_span (hn : len.toNat = 64) :
    exec (.cish addr len) s =
      guardSpan .read addr 64 s (.next (s.setOk (isHexText (memRead s.mem addr.toNat 64)))) :=
  if_neg (not_not.mpr hn)

theorem exec_cfromb (hn : len.toNat = 32) (hl : legalSpan addr 32) (ha : admitsSpan s.platform .read addr 32) :
    exec (.cfromb ca addr len) s =
      .next ((s.setCid ca (toContentId (memRead s.mem addr.toNat 32))).setOk true) :=
  (exec_cfromb_span hn).trans (guardSpan_pass hl ha)

theorem exec_cfromh_hexText (hn : len.toNat = 64) (hl : legalSpan addr 64)
    (ha : admitsSpan s.platform .read addr 64) (ht : isHexText (memRead s.mem addr.toNat 64) = true) :
    exec (.cfromh ca addr len) s =
      .next ((s.setCid ca (toContentId (hexDecode (memRead s.mem addr.toNat 64)))).setOk true) :=
  (exec_cfromh_span hn).trans ((guardSpan_pass hl ha).trans (if_pos ht))

theorem exec_cfromh_otherText (hn : len.toNat = 64) (hl : legalSpan addr 64)
    (ha : admitsSpan s.platform .read addr 64) (ht : ¬isHexText (memRead s.mem addr.toNat 64) = true) :
    exec (.cfromh ca addr len) s = .next (s.setOk false) :=
  (exec_cfromh_span hn).trans ((guardSpan_pass hl ha).trans (if_neg ht))

/-- Both ends of a hex parse set `OK` to whether the text is hex text (R167). -/
theorem ok_of_parseHexId {text : List Byte} {u : State} (h : parseHexId ca text s = .next u) :
    u.ok = isHexText text := by
  obtain ⟨ht, rfl⟩ | ⟨ht, rfl⟩ := parseHexId_next h
  · exact ht.symm
  · exact ht.symm

/-- `OK` after CISH is `OK` after CFROMH on the same text (R169). -/
theorem ok_cish_eq_ok_cfromh {t u : State} (ht : exec (.cish addr len) s = .next t)
    (hu : exec (.cfromh ca addr len) s = .next u) : t.ok = u.ok := by
  by_cases hn : len.toNat = 64
  · rw [exec_cish_span hn] at ht
    rw [exec_cfromh_span hn] at hu
    obtain hpass | ⟨c, info, hfault⟩ := guardSpan_passes_or_faults .read addr 64 s
    · rw [hpass] at ht hu
      cases ht
      exact (ok_of_parseHexId hu).symm
    · rw [hfault] at ht hu
      cases ht
      cases hu
      rfl
  · rw [exec_cish_wrongLength hn] at ht
    rw [exec_cfromh_wrongLength hn] at hu
    cases ht
    cases hu
    rfl

end

/-- Settles O31: the length decides first, then the two checks of the span; the value loaded is read byte by byte with
`getElem_toContentId_memRead`. -/
theorem cfrombLoadsExactlyThirtyTwoBytes : Obligations.CfrombLoadsExactlyThirtyTwoBytes := fun _ addr _ s =>
  ⟨exec_cfromb_wrongLength, fun hn hl => (exec_cfromb_span hn).trans (guardSpan_illegal hl),
    fun hn hl _ ha => (exec_cfromb_span hn).trans (guardSpan_denied hl ha), fun hn hl ha =>
      ⟨_, getElem_toContentId_memRead s.mem addr.toNat, exec_cfromb hn hl ha⟩⟩

/-- Settles O32: the length decides first, then the two checks of the span, and then whether every character is a hex
digit (`isHexText_memRead_iff`). -/
theorem cfromhParsesSixtyFourHexDigits : Obligations.CfromhParsesSixtyFourHexDigits := by
  intro ca addr len s
  have htext := isHexText_memRead_iff s.mem addr.toNat
  refine ⟨exec_cfromh_wrongLength, fun hn hl => (exec_cfromh_span hn).trans (guardSpan_illegal hl),
    fun hn hl _ ha => (exec_cfromh_span hn).trans (guardSpan_denied hl ha), fun hn hl ha => ⟨?_, fun hall => ?_⟩⟩
  · rintro ⟨i, hi, hchar⟩
    exact exec_cfromh_otherText hn hl ha fun ht => Bool.eq_false_iff.mp hchar (htext.mp ht i hi)
  · exact ⟨_, getElem_toContentId_hexDecode_memRead s.mem addr.toNat,
      exec_cfromh_hexText hn hl ha (htext.mpr hall)⟩

/-- Settles O33: CISB has no guard; the decoder gives the encoded command back, and its row uses OPB only. -/
theorem cisbTestsTheLengthOnly : Obligations.CisbTestsTheLengthOnly := by
  refine ⟨fun _ _ => rfl, fun opa opb opc => ?_⟩
  calc decode ⟨0x00000022, opa, opb, opc⟩
      = decode (encode (.cisb opb)) :=
        decodeIgnoresUnusedPorts _ _ rfl (fun hu => absurd hu (by decide : 0x22 ∉ opaUsers)) (fun _ => rfl)
          (fun hu => absurd hu (by decide : 0x22 ∉ opcUsers))
    _ = .ok (.cisb opb) := decode_encode _

/-- Settles O34: CISH runs the checks of CFROMH on the same span and then tests the text CFROMH parses. -/
theorem cishClassifiesTheText : Obligations.CishClassifiesTheText := fun addr _ s =>
  ⟨exec_cish_wrongLength, fun hn hl => (exec_cish_span hn).trans (guardSpan_illegal hl),
    fun hn hl _ ha => (exec_cish_span hn).trans (guardSpan_denied hl ha), fun hn hl ha =>
      ⟨_, (exec_cish_span hn).trans (guardSpan_pass hl ha), isHexText_memRead_iff s.mem addr.toNat⟩,
    fun _ _ _ => ok_cish_eq_ok_cfromh⟩

end Sys2Proof.Machine

/-! ### ContentId: values to memory, and the round trips (42_content_id.md R170 to R173) -/

namespace Sys2Proof.Machine

section
variable {s : State} {ca : CReg} {addr : Word}

theorem exec_ctoh (hl : legalSpan addr 64) (ha : admitsSpan s.platform .write addr 64) :
    exec (.ctoh ca addr) s = .next (s.store addr (bytesToHex (cidGet s.cid ca).toList)) :=
  guardSpan_pass hl ha

theorem exec_ctob (hl : legalSpan addr 32) (ha : admitsSpan s.platform .write addr 32) :
    exec (.ctob ca addr) s = .next (s.store addr (cidGet s.cid ca).toList) :=
  guardSpan_pass hl ha

theorem length_bytesToHex_id (x : ContentId) : (bytesToHex x.toList).length = 64 := by
  rw [length_bytesToHex, length_toList_id]

/-- The text CTOH wrote is the text a command then reads from the span (R171). -/
theorem memRead_store_bytesToHex (s : State) (addr : Word) (x : ContentId) :
    memRead (s.store addr (bytesToHex x.toList)).mem addr.toNat 64 = bytesToHex x.toList := by
  have h := memRead_memWrite_same s.mem addr.toNat (bytesToHex x.toList)
  rwa [length_bytesToHex_id] at h

/-- The bytes CTOB wrote are the bytes a command then reads from the span (R173). -/
theorem memRead_store_toList (s : State) (addr : Word) (x : ContentId) :
    memRead (s.store addr x.toList).mem addr.toNat 32 = x.toList := by
  have h := memRead_memWrite_same s.mem addr.toNat x.toList
  rwa [length_toList_id] at h

end

/-- Settles O35: after the two checks of the span one store happens, of the text that `getElem?_bytesToHex` reads
digit by digit. -/
theorem ctohWritesLowerCaseHexText : Obligations.CtohWritesLowerCaseHexText := by
  intro ca addr s
  refine ⟨guardSpan_illegal, fun hl _ ha => guardSpan_denied hl ha, fun hl ha =>
    ⟨_, exec_ctoh hl ha, rfl, fun k hk => ?_, fun a hout => ?_⟩⟩
  · obtain ⟨hhigh, hlow⟩ := getElem?_bytesToHex (bs := (cidGet s.cid ca).toList) (k := k) (by simpa using hk)
    rw [Vector.getElem_toList] at hhigh hlow
    exact ⟨memGet_memWrite_of_getElem? _ _ hhigh, memGet_memWrite_of_getElem? _ _ hlow⟩
  · exact memGet_memWrite_outside _ _ _ (by rwa [length_bytesToHex_id])

/-- Settles O36: after the two checks of the span one store happens, of the register's bytes. -/
theorem ctobWritesTheRawBytes : Obligations.CtobWritesTheRawBytes := by
  intro ca addr s
  refine ⟨guardSpan_illegal, fun hl _ ha => guardSpan_denied hl ha, fun hl ha =>
    ⟨_, exec_ctob hl ha, rfl, fun k hk => ?_, fun a hout => ?_⟩⟩
  · exact (memGet_memWrite_inside _ _ _ k (by simpa using hk)).trans (Vector.getElem_toList ..)
  · exact memGet_memWrite_outside _ _ _ (by rwa [length_toList_id])

/-- Settles O37: CFROMH reads the text CTOH stored, which is hex text and decodes to the value's own bytes. -/
theorem hexTextRoundTripThroughMemory : Obligations.HexTextRoundTripThroughMemory := by
  intro ca cb addr s hf hl hw hr
  have htext := memRead_store_bytesToHex s addr (cidGet s.cid ca)
  have hparse := exec_cfromh_hexText (s := s.store addr (bytesToHex (cidGet s.cid ca).toList)) (ca := cb)
    (len := 64) rfl hl hr (by rw [htext, isHexText_bytesToHex_id])
  rw [htext, hexDecode_bytesToHex, toContentId_toList] at hparse
  exact ⟨_, (performAll_cons hf (exec_ctoh hl hw)).trans (performAll_cons hf hparse), rfl, hf,
    cidGet_cidSet_same ..⟩

/-- Settles O38: CFROMB reads the bytes CTOB stored. -/
theorem rawBytesRoundTripThroughMemory : Obligations.RawBytesRoundTripThroughMemory := by
  intro ca cb addr s hf hl hw hr
  have hload := exec_cfromb (s := s.store addr (cidGet s.cid ca).toList) (ca := cb) (len := 32) rfl hl hr
  rw [memRead_store_toList, toContentId_toList] at hload
  exact ⟨_, (performAll_cons hf (exec_ctob hl hw)).trans (performAll_cons hf hload), rfl, hf,
    cidGet_cidSet_same ..⟩

end Sys2Proof.Machine

/-! ### ContentId: byte strings as numbers, and the scalar hash (00_scope.md R8, 42_content_id.md R178) -/

namespace Sys2Proof.Machine

theorem leNat_append (x y : List Byte) : leNat (x ++ y) = leNat x + 256 ^ x.length * leNat y := by
  induction x with
  | nil => simp [leNat]
  | cons b x ih =>
    simp only [List.cons_append, leNat, ih, List.length_cons, Nat.pow_succ]
    ring

/-- The first byte of a string is the most significant one when the string is read from its end. -/
theorem leNat_reverse_cons (b : Byte) (x : List Byte) :
    leNat (b :: x).reverse = leNat x.reverse + 256 ^ x.length * b.toNat := by
  rw [List.reverse_cons, leNat_append, List.length_reverse]
  rfl

theorem leNat_reverse_lt (x : List Byte) : leNat x.reverse < 256 ^ x.length := by
  simpa using leNat_lt x.reverse

/-- `bytes` gives a string back from its number (R8). -/
theorem leBytes_leNat (x : List Byte) : leBytes (leNat x) x.length = x := by
  induction x with
  | nil => rfl
  | cons b x ih =>
    have hlt := b.isLt
    have hb : BitVec.ofNat 8 (b.toNat + 256 * leNat x) = b := by
      apply BitVec.eq_of_toNat_eq
      rw [BitVec.toNat_ofNat]
      omega
    have hx : (b.toNat + 256 * leNat x) / 256 = leNat x := by omega
    rw [leNat, List.length_cons, leBytes, hb, hx, ih]

/-- Two strings of one length with one number are one string. -/
theorem eq_of_leNat_eq {x y : List Byte} (hlen : x.length = y.length) (h : leNat x = leNat y) : x = y := by
  rw [← leBytes_leNat x, h, hlen, leBytes_leNat]

/-- The number of a string is the sum of its bytes by place. -/
theorem leNat_eq_sum (x : List Byte) :
    leNat x = ∑ i ∈ Finset.range x.length, (x.getD i 0).toNat * 256 ^ i := by
  induction x with
  | nil => rfl
  | cons b x ih =>
    rw [leNat, ih, List.length_cons, Finset.sum_range_succ', Finset.mul_sum, Nat.add_comm]
    congr 1
    · refine Finset.sum_congr rfl fun i _ => ?_
      rw [List.getD_cons_succ, Nat.pow_succ]
      ring
    · simp

/-- The same with the string read from its end: the places count down. -/
theorem leNat_reverse_eq_sum (x : List Byte) :
    leNat x.reverse = ∑ i ∈ Finset.range x.length, (x.getD i 0).toNat * 256 ^ (x.length - 1 - i) := by
  induction x with
  | nil => rfl
  | cons b x ih =>
    rw [leNat_reverse_cons, ih, List.length_cons, Finset.sum_range_succ']
    congr 1
    · refine Finset.sum_congr rfl fun i _ => ?_
      rw [List.getD_cons_succ, show x.length + 1 - 1 - (i + 1) = x.length - 1 - i by omega]
    · rw [List.getD_cons_zero, Nat.mul_comm]
      rfl

theorem leNat_replicate_zero (n : Nat) : leNat (List.replicate n 0x00) = 0 := by
  induction n with
  | zero => rfl
  | succ n ih => rw [List.replicate_succ, leNat, ih]; rfl

/-- A string of bytes 0xFF has the greatest number of its length. -/
theorem leNat_replicate_max (n : Nat) : leNat (List.replicate n 0xFF) + 1 = 256 ^ n := by
  induction n with
  | zero => rfl
  | succ n ih =>
    rw [List.replicate_succ, leNat, Nat.pow_succ, ← ih, show (0xFF : Byte).toNat = 255 from rfl]
    omega

/-- The 8 bytes the scalar hash reads, in the order of their addresses (R178). -/
def hashSlice (off : SliceOff) (x : ContentId) : List Byte := (x.toList.drop (sliceStart off)).take 8

theorem scalarHash_le (off : SliceOff) (x : ContentId) :
    scalarHash off .le x = BitVec.ofNat 64 (leNat (hashSlice off x)) := rfl

theorem scalarHash_be (off : SliceOff) (x : ContentId) :
    scalarHash off .be x = BitVec.ofNat 64 (leNat (hashSlice off x).reverse) := rfl

theorem sliceStart_mem (off : SliceOff) : sliceStart off ∈ [0, 8, 16, 24] := by
  cases off <;> decide

@[simp] theorem length_hashSlice (off : SliceOff) (x : ContentId) : (hashSlice off x).length = 8 := by
  cases off <;> simp [hashSlice, sliceStart]

theorem getD_hashSlice (off : SliceOff) (x : ContentId) {i : Nat} (hi : i < 8) :
    (hashSlice off x).getD i 0 = x.toList.getD (sliceStart off + i) 0 := by
  simp only [hashSlice, List.getD_eq_getElem?_getD, List.getElem?_take, hi, if_true, List.getElem?_drop]

theorem hashSlice_of_replicate {x : ContentId} {b : Byte} (h : x.toList = List.replicate 32 b) (off : SliceOff) :
    hashSlice off x = List.replicate 8 b := by
  rw [hashSlice, h]
  cases off <;> rfl

/-- No slice is too large for `RES`. -/
theorem toNat_ofNat_leNat {x : List Byte} (h : x.length = 8) : (BitVec.ofNat 64 (leNat x)).toNat = leNat x := by
  have hlt := leNat_lt x
  rw [h] at hlt
  exact Nat.mod_eq_of_lt hlt

/-- The scalar hash in little-endian order, by the bytes of the slice (R178). -/
theorem toNat_scalarHash_le (off : SliceOff) (x : ContentId) :
    (scalarHash off .le x).toNat =
      ∑ i ∈ Finset.range 8, (x.toList.getD (sliceStart off + i) 0).toNat * 256 ^ i := by
  calc (scalarHash off .le x).toNat
      = leNat (hashSlice off x) := by rw [scalarHash_le, toNat_ofNat_leNat (length_hashSlice off x)]
    _ = ∑ i ∈ Finset.range 8, ((hashSlice off x).getD i 0).toNat * 256 ^ i := by
        rw [leNat_eq_sum, length_hashSlice]
    _ = _ := Finset.sum_congr rfl fun i hi => by rw [getD_hashSlice off x (Finset.mem_range.mp hi)]

/-- The scalar hash in big-endian order, by the bytes of the slice (R178). -/
theorem toNat_scalarHash_be (off : SliceOff) (x : ContentId) :
    (scalarHash off .be x).toNat =
      ∑ i ∈ Finset.range 8, (x.toList.getD (sliceStart off + i) 0).toNat * 256 ^ (7 - i) := by
  calc (scalarHash off .be x).toNat
      = leNat (hashSlice off x).reverse := by rw [scalarHash_be, toNat_ofNat_leNat (by simp)]
    _ = ∑ i ∈ Finset.range 8, ((hashSlice off x).getD i 0).toNat * 256 ^ (7 - i) := by
        rw [leNat_reverse_eq_sum, length_hashSlice]
    _ = _ := Finset.sum_congr rfl fun i hi => by rw [getD_hashSlice off x (Finset.mem_range.mp hi)]

/-- Of a value with one byte repeated, the order does not matter. -/
theorem scalarHash_of_replicate {x : ContentId} {b : Byte} (h : x.toList = List.replicate 32 b) (off : SliceOff)
    (order : SliceOrder) : scalarHash off order x = BitVec.ofNat 64 (leNat (List.replicate 8 b)) := by
  cases order with
  | le => rw [scalarHash_le, hashSlice_of_replicate h]
  | be => rw [scalarHash_be, hashSlice_of_replicate h, List.reverse_replicate]

/-- Settles O41: the value written is the scalar hash, a sum in each order (`toNat_scalarHash_le`,
`toNat_scalarHash_be`); of a value of equal bytes it is the number of 8 of them. -/
theorem chashReadsTheConfiguredSlice : Obligations.ChashReadsTheConfiguredSlice := fun ca s =>
  ⟨scalarHash s.platform.sliceOff s.platform.sliceOrder (cidGet s.cid ca), rfl,
    fun ho => ho ▸ toNat_scalarHash_le _ _, fun ho => ho ▸ toNat_scalarHash_be _ _, sliceStart_mem _,
    fun h => scalarHash_of_replicate h _ _, fun h => scalarHash_of_replicate h _ _⟩

end Sys2Proof.Machine

/-! ### ContentId: the order (42_content_id.md R165, R174 to R177) -/

namespace Sys2Proof.Machine

/-- On strings of one length the order of R165 is the lexicographic order of lists of bytes. -/
theorem lexLess_iff_lt {x y : List Byte} (h : x.length = y.length) : lexLess x y = true ↔ x < y := by
  induction x generalizing y with
  | nil =>
    cases y with
    | nil => simp [lexLess]
    | cons b y => cases h
  | cons a x ih =>
    cases y with
    | nil => cases h
    | cons b y =>
      rw [List.cons_lt_cons_iff, lexLess]
      by_cases hab : a = b
      · rw [if_pos hab, ih (Nat.succ.inj h)]
        simp [hab]
      · rw [if_neg hab]
        simp [hab, BitVec.lt_def]

/-- Numbers with different leading digits compare as the digits do. -/
theorem lt_iff_of_leading_digit_ne {p u v a b : Nat} (hu : u < p) (hv : v < p) (h : a ≠ b) :
    u + p * a < v + p * b ↔ a < b := by
  have key {u v a b : Nat} (hu : u < p) (hlt : a < b) : u + p * a < v + p * b := by
    have := Nat.mul_le_mul_left p hlt
    rw [Nat.mul_succ] at this
    omega
  refine ⟨fun hlt => ?_, key hu⟩
  by_contra hba
  have := key (v := u) hv (Nat.lt_of_le_of_ne (Nat.not_lt.mp hba) h.symm)
  omega

/-- On strings of one length the order of R165 is the order of their big-endian numbers. -/
theorem lexLess_iff_leNat_reverse_lt {x y : List Byte} (h : x.length = y.length) :
    lexLess x y = true ↔ leNat x.reverse < leNat y.reverse := by
  induction x generalizing y with
  | nil =>
    cases y with
    | nil => simp [lexLess]
    | cons b y => cases h
  | cons a x ih =>
    cases y with
    | nil => cases h
    | cons b y =>
      have hlen : x.length = y.length := Nat.succ.inj h
      rw [leNat_reverse_cons, leNat_reverse_cons, lexLess, hlen]
      by_cases hab : a = b
      · rw [if_pos hab, ih hlen, hab, Nat.add_lt_add_iff_right]
      · rw [if_neg hab, decide_eq_true_eq, lt_iff_of_leading_digit_ne (hlen ▸ leNat_reverse_lt x)
          (leNat_reverse_lt y) (fun hn => hab (BitVec.eq_of_toNat_eq hn))]

/-- A ContentId read as a 256-bit big-endian number (R165). -/
def idNat (x : ContentId) : Nat := leNat x.toList.reverse

theorem idLess_iff_idNat_lt (x y : ContentId) : idLess x y = true ↔ idNat x < idNat y :=
  lexLess_iff_leNat_reverse_lt (by rw [length_toList_id, length_toList_id])

theorem idLess_eq_false_iff (x y : ContentId) : idLess x y = false ↔ idNat y ≤ idNat x := by
  rw [← Bool.not_eq_true, idLess_iff_idNat_lt, Nat.not_lt]

/-- Two ContentIds with one number are one value. -/
theorem idNat_injective : Function.Injective idNat := fun x y h =>
  Vector.toList_inj.mp (List.reverse_inj.mp (eq_of_leNat_eq (by simp) h))

theorem idNat_lt (x : ContentId) : idNat x < 256 ^ 32 := by
  simpa [idNat] using leNat_reverse_lt x.toList

/-- `Less` compares at the least index where the values differ (R165). -/
theorem idLess_iff_exists (x y : ContentId) : idLess x y = true ↔
    ∃ k, ∃ h : k < 32, (∀ j (hj : j < k), x[j] = y[j]) ∧ x[k].toNat < y[k].toNat := by
  rw [idLess, lexLess_iff_lt (by simp), List.lt_iff_exists]
  simp [BitVec.lt_def]

theorem idLess_irrefl (x : ContentId) : idLess x x = false := lexLess_irrefl _

theorem idEqual_eq_decide (x y : ContentId) : idEqual x y = decide (x = y) := by
  rw [Bool.eq_iff_iff, idEqual_iff, decide_eq_true_eq]

theorem toList_zeroId : zeroId.toList = List.replicate 32 0x00 := Vector.toList_replicate

theorem toList_maxId : maxId.toList = List.replicate 32 0xFF := Vector.toList_replicate

theorem idTrue_eq_decide (x : ContentId) : idTrue x = decide (x.toList ≠ List.replicate 32 0x00) := by
  rw [idTrue, idEqual_eq_decide, ← decide_not, decide_eq_decide, ← toList_zeroId, ne_eq, Vector.toList_inj]

/-! The three values of a comparison (R175). -/

section
variable {x y : ContentId}

theorem compareCode_of_less (h : idLess x y = true) : compareCode x y = 0xFFFFFFFFFFFFFFFF := if_pos h

theorem compareCode_of_eq (h : x = y) : compareCode x y = 0 := by
  subst h
  rw [compareCode, idLess_irrefl, if_neg Bool.false_ne_true, if_pos ((idEqual_iff x x).mpr rfl)]

theorem compareCode_of_greater (h : idLess x y = false) (hne : x ≠ y) : compareCode x y = 1 := by
  rw [compareCode, h, if_neg Bool.false_ne_true, if_neg (mt (idEqual_iff x y).mp hne)]

end

section
variable (s : State) (ca cb : CReg)

theorem exec_ceq : exec (.ceq ca cb) s = .next (s.setOk (decide (cidGet s.cid ca = cidGet s.cid cb))) := by
  rw [← idEqual_eq_decide]
  rfl

theorem exec_ccmp : exec (.ccmp ca cb) s = .next (s.setRes (compareCode (cidGet s.cid ca) (cidGet s.cid cb))) := rfl

theorem exec_clt : exec (.clt ca cb) s = .next (s.setOk (idLess (cidGet s.cid ca) (cidGet s.cid cb))) := rfl

theorem exec_cbool :
    exec (.cbool ca) s = .next (s.setOk (decide ((cidGet s.cid ca).toList ≠ List.replicate 32 0x00))) := by
  rw [← idTrue_eq_decide]
  rfl

end

/-- Settles O39: the first difference decides the order of lists, and the rest are facts of the numbers the values
stand for (`idLess_iff_idNat_lt`), which are different for different values. -/
theorem lessIsTheLexicographicTotalOrder : Obligations.LessIsTheLexicographicTotalOrder := by
  refine ⟨idLess_iff_exists, idLess_irrefl, fun x y z hxy hyz => ?_, fun x y hne => ?_, idLess_iff_idNat_lt⟩
  · rw [idLess_iff_idNat_lt] at hxy hyz ⊢
    exact Nat.lt_trans hxy hyz
  · have hnat : idNat x ≠ idNat y := idNat_injective.ne hne
    rw [idLess_iff_idNat_lt, idLess_eq_false_iff]
    omega

/-- Settles O40: each command writes the comparison of its registers, which R175 splits into three cases. -/
theorem compareCommandsWriteTheOrderOfTwoRegisters : Obligations.CompareCommandsWriteTheOrderOfTwoRegisters := by
  intro ca cb s
  rw [exec_ccmp]
  exact ⟨exec_ceq s ca cb, fun h => by rw [compareCode_of_less h]; rfl, fun h => by rw [compareCode_of_eq h]; rfl,
    fun h hne => by rw [compareCode_of_greater h hne]; rfl, exec_clt s ca cb, exec_cbool s ca⟩

end Sys2Proof.Machine

/-! ### ContentId: the distinguished values (42_content_id.md R161, R179, R180) -/

namespace Sys2Proof.Machine

/-- Every register holds `Zero` after reset (R32). -/
theorem cidGet_reset (r : CReg) : cidGet State.reset.cid r = zeroId := by
  cases r <;> rfl

theorem idNat_of_replicate_max {x : ContentId} (h : x.toList = List.replicate 32 0xFF) : idNat x + 1 = 256 ^ 32 := by
  rw [idNat, h, List.reverse_replicate, leNat_replicate_max]

/-- No number of a ContentId is above that of `Max`, and no other value has it (R180). -/
theorem idLess_of_replicate_max {x y : ContentId} (h : y.toList = List.replicate 32 0xFF) (hne : x ≠ y) :
    idLess x y = true := by
  have hx := idNat_lt x
  have hy := idNat_of_replicate_max h
  have hnat : idNat x ≠ idNat y := idNat_injective.ne hne
  rw [idLess_iff_idNat_lt]
  omega

theorem idTrue_maxId : idTrue maxId = true := by decide

theorem exec_czero (ca : CReg) (s : State) : exec (.czero ca) s = .next (s.setCid ca zeroId) := rfl

theorem exec_cmax (ca : CReg) (s : State) : exec (.cmax ca) s = .next (s.setCid ca maxId) := rfl

/-- CBOOL after CMAX of the same register (R180). -/
theorem exec_cbool_setCid_maxId (ca : CReg) (s : State) :
    exec (.cbool ca) (s.setCid ca maxId) = .next ((s.setCid ca maxId).setOk true) := by
  rw [exec_cbool, ← idTrue_eq_decide, State.setCid_cid, cidGet_cidSet_same, idTrue_maxId]

/-- Settles O42: each command writes one register, and `Max` has the greatest number (`idLess_of_replicate_max`). -/
theorem czeroAndCmaxSetTheDistinguishedValues : Obligations.CzeroAndCmaxSetTheDistinguishedValues := by
  refine ⟨fun ca s => ⟨s.setCid ca zeroId, s.setCid ca maxId, exec_czero ca s, rfl, ?_, ?_,
    fun _ => cidGet_cidSet_other s.cid _, exec_cmax ca s, rfl, ?_, fun _ => cidGet_cidSet_other s.cid _,
    exec_cbool_setCid_maxId ca s⟩, fun _ _ => idLess_of_replicate_max⟩
  · rw [State.setCid_cid, cidGet_cidSet_same, toList_zeroId]
  · rw [State.setCid_cid, cidGet_cidSet_same, cidGet_reset]
  · rw [State.setCid_cid, cidGet_cidSet_same, toList_maxId]

end Sys2Proof.Machine

/-! ### HexCodec: the digits and their characters (43_hex_codec.md R201 to R207) -/

namespace Sys2Proof.Machine

theorem isHexChar_iff (c : Byte) :
    isHexChar c = true ↔ (0x30 ≤ c.toNat ∧ c.toNat ≤ 0x39) ∨ (0x41 ≤ c.toNat ∧ c.toNat ≤ 0x46) ∨
      (0x61 ≤ c.toNat ∧ c.toNat ≤ 0x66) := by
  simp only [isHexChar, Bool.or_eq_true, decide_eq_true_eq, or_assoc]

theorem toNat_hexChar_decimal {n : BitVec 4} (h : n.toNat ≤ 9) : (hexChar n).toNat = 0x30 + n.toNat := by
  rw [hexChar, if_pos h]
  bv_omega

theorem toNat_hexChar_letter {n : BitVec 4} (h : 9 < n.toNat) : (hexChar n).toNat = 0x61 + n.toNat - 10 := by
  rw [hexChar, if_neg (Nat.not_le.mpr h)]
  bv_omega

section
variable {c : Byte}

/-! The four rows of R203. -/

theorem toNat_hexVal_decimal (h : 0x30 ≤ c.toNat ∧ c.toNat ≤ 0x39) : (hexVal c).toNat = c.toNat - 0x30 := by
  rw [hexVal, if_pos h]
  bv_omega

theorem toNat_hexVal_upper (h : 0x41 ≤ c.toNat ∧ c.toNat ≤ 0x46) : (hexVal c).toNat = c.toNat - 0x41 + 10 := by
  rw [hexVal, if_neg (by omega), if_neg (by omega), if_pos h]
  bv_omega

theorem toNat_hexVal_lower (h : 0x61 ≤ c.toNat ∧ c.toNat ≤ 0x66) : (hexVal c).toNat = c.toNat - 0x61 + 10 := by
  rw [hexVal, if_neg (by omega), if_pos h]
  bv_omega

theorem hexVal_of_not_isHexChar (h : ¬isHexChar c = true) : hexVal c = 0xFF := by
  rw [isHexChar_iff, not_or, not_or] at h
  obtain ⟨hdecimal, hupper, hlower⟩ := h
  rw [hexVal, if_neg hdecimal, if_neg hlower, if_neg hupper]
  rfl

/-- The values 0 to 15 are those of the hex digits: the value of any other character is `HEX_INVALID` (R203). -/
theorem toNat_hexVal_le_iff (c : Byte) : (hexVal c).toNat ≤ 15 ↔ isHexChar c = true := by
  refine ⟨fun hle => ?_, fun hc => ?_⟩
  · by_contra hc
    rw [hexVal_of_not_isHexChar hc] at hle
    exact absurd hle (by decide)
  · obtain h | h | h := (isHexChar_iff c).mp hc
    · rw [toNat_hexVal_decimal h]
      omega
    · rw [toNat_hexVal_upper h]
      omega
    · rw [toNat_hexVal_lower h]
      omega

/-- A character passes through the port that carries it, whatever the upper bits of the port (R77). -/
theorem extractLsb'_setWidth_setWidth (opa : Word) :
    opa.extractLsb' 0 8 = ((opa.setWidth 8).setWidth 64).extractLsb' 0 8 := by
  rw [← BitVec.setWidth_eq_extractLsb' (by decide), ← BitVec.setWidth_eq_extractLsb' (by decide),
    BitVec.setWidth_setWidth_of_le _ (by decide), BitVec.setWidth_eq]

/-- A word whose opcode takes a character decodes by its OPA[7:0] alone (R77). -/
theorem decode_character_word (w : CmdWord) (i : Instr) (hi : (encode i).cw = w)
    (hop : (w.extractLsb' 0 8).toNat ∈ [0x30, 0x31]) {opa : Word}
    (hopa : opa.extractLsb' 0 8 = (encode i).opa.extractLsb' 0 8) (opb opc : Word) :
    decode ⟨w, opa, opb, opc⟩ = .ok i := by
  have hopb : ∀ o ∈ [0x30, 0x31], o ∉ opbUsers := by decide
  have hopc : ∀ o ∈ [0x30, 0x31], o ∉ opcUsers := by decide
  calc decode ⟨w, opa, opb, opc⟩
      = decode (encode i) := decodeIgnoresUnusedPorts _ _ hi.symm (fun _ => .inr ⟨hop, hopa⟩)
          (fun hu => absurd hu (hopb _ hop)) (fun hu => absurd hu (hopc _ hop))
    _ = .ok i := decode_encode i

/-- The two character commands, by the class of the character and its value (R206, R207). -/
theorem exec_hexCharacter (s : State) {b : Bool} {v : Nat} (hc : isHexChar c = b) (hv : (hexVal c).toNat = v) :
    exec (.xishex c) s = .next { s with ok := b } ∧
      exec (.xh2b c) s = .next { s with ok := b, res := BitVec.ofNat 64 v } := by
  subst hc hv
  rw [BitVec.ofNat_toNat]
  exact ⟨rfl, rfl⟩

end

/-- Settles O44: the digit of a nibble by the two rows of R204, and the value of a digit by the rows of R203. -/
theorem hexDigitMapsAreInverse : Obligations.HexDigitMapsAreInverse :=
  ⟨fun n => ⟨toNat_hexChar_decimal, toNat_hexChar_letter, by
    rw [hexVal_hexChar, BitVec.toNat_setWidth_of_le (by decide)]⟩, toNat_hexVal_le_iff⟩

/-- Settles O43: the decoder takes the low byte of OPA, and each class of characters has its row of R203. -/
theorem hexCharacterCommands : Obligations.HexCharacterCommands := by
  refine ⟨fun opa opb opc => ?_, fun c s => ⟨fun h => ?_, fun h => ?_, fun h => ?_, fun hdecimal hupper hlower => ?_⟩⟩
  · have hopa := extractLsb'_setWidth_setWidth opa
    exact ⟨decode_character_word 0x30 (.xishex (opa.setWidth 8)) rfl (by decide) hopa opb opc,
      decode_character_word 0x31 (.xh2b (opa.setWidth 8)) rfl (by decide) hopa opb opc⟩
  · exact exec_hexCharacter s ((isHexChar_iff c).mpr (.inl h)) (toNat_hexVal_decimal h)
  · exact exec_hexCharacter s ((isHexChar_iff c).mpr (.inr (.inl h))) (toNat_hexVal_upper h)
  · exact exec_hexCharacter s ((isHexChar_iff c).mpr (.inr (.inr h))) (toNat_hexVal_lower h)
  · have hc : ¬isHexChar c = true := by
      rw [isHexChar_iff]
      exact not_or.mpr ⟨hdecimal, not_or.mpr ⟨hupper, hlower⟩⟩
    exact exec_hexCharacter s (Bool.eq_false_iff.mpr hc) (congrArg BitVec.toNat (hexVal_of_not_isHexChar hc))

end Sys2Proof.Machine

/-! ### HexCodec: the text of a byte string and its command (43_hex_codec.md R205, R208, 20_memory.md R60) -/

namespace Sys2Proof.Machine

/-- Settles O45: the length lemma of the text, and its digits by induction on the string (`getElem?_bytesToHex`). -/
theorem bytesToHexWritesTwoDigitsAByte : Obligations.BytesToHexWritesTwoDigitsAByte :=
  ⟨fun b => ⟨length_bytesToHex b, fun _ => getElem?_bytesToHex⟩, rfl⟩

/-- The digits of byte k of a memory span stand at places 2k and 2k + 1 of its stored hex text (R208). -/
theorem memGet_memWrite_bytesToHex_memRead (m : List Host.Cell) (a src : Nat) {n k : Nat} (hk : k < n) :
    memGet (memWrite m a (bytesToHex (memRead m src n))) (a + 2 * k) =
        hexChar ((memGet m (src + k)).extractLsb' 4 4) ∧
      memGet (memWrite m a (bytesToHex (memRead m src n))) (a + 2 * k + 1) =
        hexChar ((memGet m (src + k)).extractLsb' 0 4) := by
  obtain ⟨hhigh, hlow⟩ := getElem?_bytesToHex (bs := memRead m src n) (k := k) (by rwa [length_memRead])
  rw [getElem_memRead] at hhigh hlow
  exact ⟨memGet_memWrite_of_getElem? _ _ hhigh, memGet_memWrite_of_getElem? _ _ hlow⟩

/-- The test of the end points says that the spans share a byte: the higher of the two starts is in both (R60). -/
theorem exists_mem_both_spans_iff (src dst : Word) (n : Nat) :
    (∃ a, (src.toNat ≤ a ∧ a < src.toNat + n) ∧ dst.toNat ≤ a ∧ a < dst.toNat + 2 * n) ↔
      0 < n ∧ spansOverlap src dst n = true := by
  rw [spansOverlap, Bool.and_eq_true, decide_eq_true_eq, decide_eq_true_eq]
  constructor
  · rintro ⟨a, hsrc, hdst⟩
    omega
  · intro h
    exact ⟨max src.toNat dst.toNat, by omega, by omega⟩

theorem guardOverlap_shared {src dst : Word} {n : Nat} {s : State} {k : Result}
    (h : ∃ a, (src.toNat ≤ a ∧ a < src.toNat + n) ∧ dst.toNat ≤ a ∧ a < dst.toNat + 2 * n) :
    guardOverlap src dst n s k = .next (faulted s 0x06 dst) :=
  have ⟨hn, hover⟩ := (exists_mem_both_spans_iff src dst n).mp h
  guardOverlap_fault hn hover

theorem guardOverlap_disjoint {src dst : Word} {n : Nat} {s : State} {k : Result}
    (h : ∀ a, src.toNat ≤ a → a < src.toNat + n → a < dst.toNat ∨ dst.toNat + 2 * n ≤ a) :
    guardOverlap src dst n s k = k := by
  refine if_neg fun hover => ?_
  obtain ⟨a, ⟨hlo, hhi⟩, hdst⟩ := (exists_mem_both_spans_iff src dst n).mpr hover
  have hout := h a hlo hhi
  omega

/-- XB2H on two legal spans that share no byte is left with the checks of access (R208). -/
theorem exec_xb2h_disjoint {s : State} {src len dst : Word} (hs : legalSpan src len.toNat)
    (hd : legalSpan dst (2 * len.toNat))
    (hdis : ∀ a, src.toNat ≤ a → a < src.toNat + len.toNat → a < dst.toNat ∨ dst.toNat + 2 * len.toNat ≤ a) :
    exec (.xb2h src len dst) s =
      guardAccess .read src len.toNat s (guardAccess .write dst (2 * len.toNat) s
        (.next (s.store dst (bytesToHex (memRead s.mem src.toNat len.toNat))))) :=
  (guardRange_pass hs).trans ((guardRange_pass hd).trans (guardOverlap_disjoint hdis))

/-- Settles O46: the checks in the order of R208, and then one store, of the text `getElem?_bytesToHex` reads digit by
digit. -/
theorem xbtohWritesTheHexTextOfItsSource : Obligations.XbtohWritesTheHexTextOfItsSource := by
  intro src len dst s
  refine ⟨guardRange_fault, fun hs hd => (guardRange_pass hs).trans (guardRange_fault hd), fun hs hd =>
    ⟨fun hshared => (guardRange_pass hs).trans ((guardRange_pass hd).trans (guardOverlap_shared hshared)),
      fun hdis => ?_⟩⟩
  rw [exec_xb2h_disjoint hs hd hdis]
  refine ⟨fun _ hr => guardAccess_fault hr, fun hr => ?_⟩
  rw [guardAccess_pass hr]
  refine ⟨fun _ hw => guardAccess_fault hw, fun hw =>
    ⟨_, guardAccess_pass hw, rfl, fun k => memGet_memWrite_bytesToHex_memRead s.mem dst.toNat src.toNat,
      fun a hout => ?_, ?_⟩⟩
  · exact memGet_memWrite_outside _ _ _ (by rwa [length_bytesToHex, length_memRead])
  · rintro rfl
    rfl

end Sys2Proof.Machine

/-! ### Exceptions: what a step that records a fault changes (60_exceptions.md R221, R222, R234) -/

namespace Sys2Proof.Machine

section
variable {s t : State} {i : Instr} {c : Command}

/-- Of the updates an instruction can make, only the recorded fault writes `FV` (R222). -/
theorem Writes.eq_faulted (h : Writes i s t) (hs : s.fv = false) (ht : t.fv = true) :
    t = faulted s t.cause t.finfo := by
  cases h with
  | fault c info => rfl
  | _ => cases hs.symm.trans ht

theorem perform_eq_faulted (h : perform c s = .next t) (hs : s.fv = false) (ht : t.fv = true) :
    t = faulted s t.cause t.finfo := by
  obtain ⟨i, -, he⟩ | ⟨-, rfl⟩ := perform_next h
  · exact (exec_writes he).eq_faulted hs ht
  · rfl

/-- A step sets `FV` only by performing a presented command: reset clears it, and no other action of the host
writes it. -/
theorem step_sets_fv (h : step s = .next t) (hs : s.fv = false) (ht : t.fv = true) :
    ∃ c rest, s.host = .command c :: rest ∧ perform c (s.nextSample.withHost rest) = .next t := by
  obtain ⟨-, rfl⟩ | ⟨-, ⟨-, rfl⟩ | ⟨rest, -, rfl⟩ | ⟨addr, b, rest, -, rfl⟩ | ⟨c, rest, hh, ⟨hf, -⟩ | ⟨-, hp⟩⟩⟩ :=
    step_next h
  · cases ht
  · cases hs.symm.trans ht
  · cases hs.symm.trans ht
  · cases hs.symm.trans ht
  · cases hs.symm.trans hf
  · exact ⟨c, rest, hh, hp⟩

end

/-- Settles O9: the step performed a presented command (`step_sets_fv`), and of what performing one can write only the
recorded fault sets `FV` (`perform_eq_faulted`). -/
theorem faultsArePrecise : Obligations.FaultsArePrecise := by
  refine ⟨fun s c info => takeFault_eq c info s, fun s t hs h ht => ?_⟩
  obtain ⟨c, rest, hh, hp⟩ := step_sets_fv h hs ht
  exact ⟨c, rest, hh, perform_eq_faulted hp hs ht⟩

end Sys2Proof.Machine

/-! ### Exceptions: ILLEGAL_COMMAND (60_exceptions.md R224, 30_encoding.md R72, R81) -/

namespace Sys2Proof.Machine

section
variable {s : State} {c : Command}

/-- The decoder accepts a command exactly when its word meets none of the three illegal conditions of R72 and R81. -/
theorem decode_ok_iff_fields (c : Command) :
    (∃ i, decode c = .ok i) ↔ c.reserved = 0 ∧ ∃ r ∈ opcodeMap, r.op = c.op ∧ c.unusedZero r.format = true := by
  simp only [decode_ok_iff_maskMatch, maskMatch_iff_fields]
  constructor
  · rintro ⟨r, hr, hres, hop, hz⟩
    exact ⟨hres, r, hr, hop.symm, hz⟩
  · rintro ⟨hres, r, hr, hop, hz⟩
    exact ⟨r, hr, hres, hop.symm, hz⟩

/-- Each of the three illegal conditions keeps a word from decoding; for the unused fields, because the row of its OP
is the only one. -/
theorem not_decode_ok_of_illegal
    (h : (∀ r ∈ opcodeMap, r.op ≠ c.op) ∨ (∃ r ∈ opcodeMap, r.op = c.op ∧ c.unusedZero r.format = false) ∨
      c.reserved ≠ 0) : ¬∃ i, decode c = .ok i := by
  rw [decode_ok_iff_fields]
  rintro ⟨hres, r, hr, hop, hz⟩
  obtain hno | ⟨q, hq, hqop, hqz⟩ | hne := h
  · exact hno r hr hop
  · obtain rfl := opcodeMap_op_injective r hr q hq (hop.trans hqop.symm)
    cases hqz.symm.trans hz
  · exact hne hres

theorem perform_of_not_decode_ok (h : ¬∃ i, decode c = .ok i) :
    perform c s = .next (faulted s 0x01 (c.cw.setWidth 64)) := by
  cases hd : decode c with
  | ok i => exact absurd ⟨i, hd⟩ h
  | error e => rw [perform, hd]; rfl

end

/-- Settles O6: the step performs the command (`step_command`); an illegal word does not decode
(`not_decode_ok_of_illegal`), and a legal one does (`decode_ok_iff_fields`). -/
theorem illegalCommandWordFaults : Obligations.IllegalCommandWordFaults := by
  intro s c rest hr hf hh
  rw [step_command hr hf hh]
  refine ⟨fun hbad => perform_of_not_decode_ok (not_decode_ok_of_illegal hbad), fun hrow hres => ?_⟩
  obtain ⟨i, hi⟩ := (decode_ok_iff_fields c).mpr ⟨hres, hrow⟩
  exact ⟨i, hi, perform_of_decode_ok hi⟩

end Sys2Proof.Machine

/-! ### Exceptions: the halted block (60_exceptions.md R223, 70_reset_and_hazards.md R250) -/

namespace Sys2Proof.Machine

section
variable {s t : State}

/-- With the reset input asserted, a step is reset and nothing else (R250). -/
theorem step_of_asserted (hr : s.rst.headD false = true) : step s = .next s.nextSample.blockReset :=
  if_pos hr

theorem hostStep_command_halted {c : Command} {rest : List HostAction} (hf : s.fv = true)
    (hh : s.host = .command c :: rest) : hostStep s = .next s := by
  simp [hostStep, hh, hf]

/-- What a step of a halted block without reset can write: the host's memory and the two input lists. -/
theorem step_next_halted (hf : s.fv = true) (hr : s.rst.headD false = false) (h : step s = .next t) :
    t = { s with mem := t.mem, rst := t.rst, host := t.host } := by
  obtain ⟨hr', -⟩ | ⟨-, ⟨-, rfl⟩ | ⟨rest, -, rfl⟩ | ⟨addr, b, rest, -, rfl⟩ | ⟨c, rest, -, ⟨-, rfl⟩ | ⟨hf', -⟩⟩⟩ :=
    step_next h
  · cases hr.symm.trans hr'
  · rfl
  · rfl
  · rfl
  · rfl
  · cases hf.symm.trans hf'

end

/-- Settles O7: a presented command is left at the head of the list, no step without reset writes a register
(`step_next_halted`), and a step with reset takes the reset value of `FV`. -/
theorem haltedBlockAcceptsNoCommand : Obligations.HaltedBlockAcceptsNoCommand := by
  intro s hf
  refine ⟨fun hr => ⟨fun c rest hh => ?_, fun t h => ?_⟩, fun hr => ⟨_, step_of_asserted hr, rfl⟩⟩
  · exact (step_of_released hr).trans (hostStep_command_halted hf hh)
  · rw [step_next_halted hf hr h]
    exact ⟨hf, rfl, rfl, rfl, rfl⟩

end Sys2Proof.Machine

/-! ### Exceptions: HDR_UNWRITTEN (60_exceptions.md R226) -/

namespace Sys2Proof.Machine

/-- Settles O21: each of the six readers checks `HDR_V` before anything else, BAPH before its Builder state. -/
theorem headerReadersFaultWhileUnwritten : Obligations.HeaderReadersFaultWhileUnwritten := fun _ hv =>
  ⟨guardHeader_fault hv, guardHeader_fault hv, guardHeader_fault hv, guardHeader_fault hv, guardHeader_fault hv,
    guardHeader_fault hv⟩

end Sys2Proof.Machine

/-! ### Reset and hazards: what a step does on each action of the host (70_reset_and_hazards.md R261) -/

namespace Sys2Proof.Machine

section
variable {s : State} {addr : Word} {b : Byte} {rest : List HostAction}

/-- With no action pending the block idles (R243). -/
theorem hostStep_nil (hh : s.host = []) : hostStep s = .next s := by
  simp [hostStep, hh]

theorem hostStep_readStatus (hh : s.host = .readStatus :: rest) : hostStep s = .next (s.withHost rest) := by
  simp [hostStep, hh]

theorem hostStep_writeByte (hh : s.host = .writeByte addr b :: rest) :
    hostStep s = hostWrite addr b (s.withHost rest) := by
  simp [hostStep, hh]

theorem hostWrite_admitted
    (h : admits s.platform .read addr.toNat = true ∨ admits s.platform .write addr.toNat = true) :
    hostWrite addr b s = .next (s.store addr [b]) :=
  if_pos ((Bool.or_eq_true _ _).mpr h)

theorem hostWrite_denied (hr : admits s.platform .read addr.toNat = false)
    (hw : admits s.platform .write addr.toNat = false) :
    hostWrite addr b s = .refused .hostWriteNotAdmitted := by
  simp [hostWrite, hr, hw]

end

/-- Settles O8: the equation of the step for each kind of action; the byte the host writes is one `memSet`. -/
theorem hostActionsLeaveTheBlockAlone : Obligations.HostActionsLeaveTheBlockAlone := by
  refine ⟨fun s hr => ?_, fun s hr => ⟨_, step_of_asserted hr, rfl, rfl⟩⟩
  rw [step_of_released hr]
  refine ⟨fun hh => hostStep_nil hh, fun rest hh => hostStep_readStatus hh, fun addr b rest hh ha => ?_⟩
  have hwrite : hostStep s.nextSample = .next ((s.nextSample.withHost rest).store addr [b]) :=
    (hostStep_writeByte (s := s.nextSample) hh).trans (hostWrite_admitted ha)
  exact ⟨_, hwrite, rfl, memGet_memSet_same s.mem _ b, fun a hne => memGet_memSet_other s.mem b hne⟩

end Sys2Proof.Machine

/-! ### Reset and hazards: the reset values, and the run that has ended (70_reset_and_hazards.md R250, R260) -/

namespace Sys2Proof.Machine

/-- Settles O1: a step with the reset input asserted is `State.blockReset`, whose registers are those of
`State.reset` (R32). -/
theorem resetTakesEveryElementToItsResetValue : Obligations.ResetTakesEveryElementToItsResetValue := by
  have hcid (r : CReg) : (cidGet State.reset.cid r).toList = List.replicate 32 0x00 := by
    rw [cidGet_reset, toList_zeroId]
  refine ⟨fun s later hr => ⟨s.nextSample.blockReset, step_of_asserted (by rw [hr]; rfl), ?_⟩, ?_⟩
  · exact ⟨rfl, hcid, rfl, rfl, rfl, rfl, rfl, rfl, rfl, rfl, rfl⟩
  · exact ⟨rfl, hcid, rfl, rfl, rfl, rfl, rfl, rfl, rfl⟩

/-- Settles O11: such a step is a reset or idles, and neither gives the host an action, records a fault or writes
memory. -/
theorem endedRunStaysEnded : Obligations.EndedRunStaysEnded := by
  rintro s ⟨hh, hf⟩
  cases hr : s.rst.headD false with
  | true => exact ⟨s.nextSample.blockReset, step_of_asserted hr, ⟨hh, rfl⟩, rfl⟩
  | false => exact ⟨s.nextSample, (step_of_released hr).trans (hostStep_nil hh), ⟨hh, hf⟩, rfl⟩

end Sys2Proof.Machine

/-! ### Reset and hazards: every command completes (70_reset_and_hazards.md R259, 40_packed_header.md R110) -/

namespace Sys2Proof.Machine

/-- The model goes on: its answer is a next state. -/
def Completes (r : Result) : Prop := ∃ t, r = .next t

section
variable {s : State} {k : Result}

theorem completes_next (t : State) : Completes (.next t) := ⟨t, rfl⟩

theorem completes_ite {p : Prop} [Decidable p] {j : Result} (hj : Completes j) (hk : Completes k) :
    Completes (if p then j else k) := by
  split
  · exact hj
  · exact hk

/-! A guard answers its fault, which is a next state (R222), or its continuation; only the header guard has a third
answer, and on a header that meets R23 it does not give it. -/

theorem Completes.guardType {ty : BitVec 4} (hk : Completes k) : Completes (guardType ty s k) :=
  completes_ite (completes_next _) hk

theorem Completes.guardSize {size : Word} (hk : Completes k) : Completes (guardSize size s k) :=
  completes_ite (completes_next _) hk

theorem Completes.guardBuilder {op : Byte} (hk : Completes k) : Completes (guardBuilder op s k) :=
  completes_ite (completes_next _) hk

theorem Completes.guardMessage {n : Nat} (hk : Completes k) : Completes (guardMessage n s k) :=
  completes_ite (completes_next _) hk

theorem Completes.guardRange {addr : Word} {n : Nat} (hk : Completes k) : Completes (guardRange addr n s k) :=
  completes_ite (completes_next _) hk

theorem Completes.guardOverlap {src dst : Word} {n : Nat} (hk : Completes k) :
    Completes (guardOverlap src dst n s k) :=
  completes_ite (completes_next _) hk

theorem Completes.guardAccess {kind : Access} {addr : Word} {n : Nat} (hk : Completes k) :
    Completes (guardAccess kind addr n s k) := by
  unfold Machine.guardAccess
  cases firstDenied s.platform kind addr.toNat n with
  | some a => exact completes_next _
  | none => exact hk

theorem Completes.guardSpan {kind : Access} {addr : Word} {n : Nat} (hk : Completes k) :
    Completes (guardSpan kind addr n s k) :=
  hk.guardAccess.guardRange

theorem Completes.guardHeader (hk : Completes k) (hw : s.hdrV = true → headerWellFormed s.hdr = true) :
    Completes (guardHeader s k) := by
  cases hv : s.hdrV with
  | false => exact ⟨_, guardHeader_fault hv⟩
  | true => rwa [guardHeader_pass hv (hw hv)]

theorem completes_appendBytes (op : Byte) (bs : List Byte) (s : State) : Completes (appendBytes op bs s) :=
  .guardBuilder (.guardMessage (completes_next _))

theorem completes_appendSpan (op : Byte) (addr len : Word) (s : State) : Completes (appendSpan op addr len s) :=
  .guardBuilder (.guardRange (.guardMessage (.guardAccess (completes_appendBytes _ _ _))))

theorem completes_parseHexId (ca : CReg) (text : List Byte) (s : State) : Completes (parseHexId ca text s) :=
  completes_ite (completes_next _) (completes_next _)

/-- Of the invariant a command needs the header's part only (R23, R110). -/
theorem exec_completes (i : Instr) (hw : s.hdrV = true → headerWellFormed s.hdr = true) : Completes (exec i s) := by
  cases i with
  | hmake ty size => exact .guardType (.guardSize (completes_next _))
  | hbytes => exact .guardHeader (completes_next _) hw
  | hdata => exact .guardHeader (completes_next _) hw
  | htype => exact .guardHeader (completes_next _) hw
  | hsize => exact .guardHeader (completes_next _) hw
  | hpres => exact .guardHeader (completes_next _) hw
  | baph => exact .guardHeader (completes_appendBytes 0x11 _ s) hw
  | bapb addr len => exact completes_appendSpan 0x12 addr len s
  | bapt addr len => exact completes_appendSpan 0x13 addr len s
  | bbuild ca => exact .guardBuilder (completes_next _)
  | cmake ty ca addr len => exact .guardType (.guardRange (.guardSize (.guardAccess (completes_next _))))
  | cfromb ca addr len => exact completes_ite (completes_next _) (.guardSpan (completes_next _))
  | cfromh ca addr len => exact completes_ite (completes_next _) (.guardSpan (completes_parseHexId ca _ s))
  | cish addr len => exact completes_ite (completes_next _) (.guardSpan (completes_next _))
  | ctoh ca addr => exact .guardSpan (completes_next _)
  | ctob ca addr => exact .guardSpan (completes_next _)
  | xb2h src len dst =>
    exact .guardRange (.guardRange (.guardOverlap (.guardAccess (.guardAccess (completes_next _)))))
  | _ => exact completes_next _

theorem perform_completes (c : Command) (hs : s.Inv) : Completes (perform c s) := by
  unfold perform
  cases decode c with
  | ok i => exact exec_completes i hs.header
  | error e => exact completes_next _

/-- The host's action completes, unless it writes a byte that no kind of access is admitted for (R261). -/
theorem hostStep_completes_or_refused (hs : s.Inv) :
    Completes (hostStep s) ∨
      (hostStep s = .refused .hostWriteNotAdmitted ∧
        ∃ addr b rest, s.host = .writeByte addr b :: rest ∧
          admits s.platform .read addr.toNat = false ∧ admits s.platform .write addr.toNat = false) := by
  match hh : s.host with
  | [] => exact .inl ⟨s, hostStep_nil hh⟩
  | .readStatus :: rest => exact .inl ⟨_, hostStep_readStatus hh⟩
  | .command c :: rest =>
    cases hf : s.fv with
    | true => exact .inl ⟨s, hostStep_command_halted hf hh⟩
    | false =>
      rw [hostStep_command hf hh]
      exact .inl (perform_completes c (hs.withHost rest))
  | .writeByte addr b :: rest =>
    rw [hostStep_writeByte hh]
    by_cases ha : admits s.platform .read addr.toNat = true ∨ admits s.platform .write addr.toNat = true
    · exact .inl ⟨_, hostWrite_admitted ha⟩
    · obtain ⟨hr, hw⟩ := not_or.mp ha
      rw [Bool.not_eq_true] at hr hw
      exact .inr ⟨hostWrite_denied hr hw, addr, b, rest, rfl, hr, hw⟩

end

/-- Settles O4: a command stops only on a header that breaks R23 (`exec_completes`); a step is a reset, or the host's
action (`hostStep_completes_or_refused`). -/
theorem acceptedCommandsAlwaysComplete : Obligations.AcceptedCommandsAlwaysComplete := by
  refine ⟨fun i s hs => exec_completes i hs.header, fun s hs => ?_⟩
  cases hr : s.rst.headD false with
  | true => exact .inl ⟨_, step_of_asserted hr⟩
  | false =>
    rw [step_of_released hr]
    exact hostStep_completes_or_refused hs.nextSample

end Sys2Proof.Machine
